-- ==== Sys2Proof/Word.lean ====
section
/-! DEFINITION. The word types of the two blocks: the bus byte, the nibble, the frame word and the
raw code (spec/00_scope.md R7 and R8, spec/92_eei_decisions.md D17). -/

namespace Sys2Proof

/-- A byte: a bus byte, a logical byte, a character code or a glyph row (R8: "A byte is 8 bits"). -/
abbrev Byte := BitVec 8

/-- A nibble: the 4-bit half of a logical byte (R11). -/
abbrev Nibble := BitVec 4

/-- The 32-bit frame word (R59). -/
abbrev FrameWord := BitVec 32

/-- A raw code, delivered as a 16-bit two's-complement value (R105, R106, D17). -/
abbrev RawCode := BitVec 16

end Sys2Proof
end

