-- ==== Sys2Proof/Config.lean ====
section
/-! DEFINITION. The implementation parameters of the spec (spec/00_scope.md R6) as a structure of
plain data, and the model's one free value. The parameters stand in State (field cfg), so that a
statement about every state holds for every value of every parameter. -/

namespace Sys2Proof

/-- TERR_POLICY: what the DPE does after a failed bus write (R6, R122). -/
inductive TerrPolicy where
  /-- the operation ends at the failed write (the default) -/
  | abort
  /-- the remaining events are issued; the result is still TransportError -/
  | continueOn
deriving DecidableEq, Repr

/-- NEG_RULE: how a negative raw code is computed (R6, R104). -/
inductive NegRule where
  /-- v - (2^N - 1), the source's explicit formula (the default) -/
  | formula
  /-- v - 2^N -/
  | twosComplement
deriving DecidableEq, Repr

/-- The parameters of R6. Everything R6 calls a constant (the four waits, the line bases, the
frame shifts and masks, the scale factors) is no field here. -/
structure Config where
  /-- RS_MASK: register-select bit of a bus byte (R46) -/
  rsMask : Byte
  /-- RW_MASK: read/write bit of a bus byte, never set by the DPE (R46) -/
  rwMask : Byte
  /-- EN_MASK: enable (strobe) bit of a bus byte (R46) -/
  enMask : Byte
  /-- BL_MASK: backlight bit of a bus byte (R46) -/
  blMask : Byte
  /-- CMD_RESET4 (R52) -/
  cmdReset4 : Byte
  /-- CMD_MODE4 (R52) -/
  cmdMode4 : Byte
  /-- CMD_FUNCSET (R52) -/
  cmdFuncset : Byte
  /-- CMD_DISPCTL (R52) -/
  cmdDispctl : Byte
  /-- CMD_CLEAR (R52) -/
  cmdClear : Byte
  /-- CMD_ENTRY (R52) -/
  cmdEntry : Byte
  /-- CMD_HOME (R52) -/
  cmdHome : Byte
  /-- CMD_SETDDRAM, OR'd with a 7-bit address (R52) -/
  cmdSetDdram : Byte
  /-- CMD_SETCGRAM, OR'd with a 6-bit address (R52) -/
  cmdSetCgram : Byte
  /-- BL_RESET: value of backlightOn after reset (R28), OPEN -/
  blReset : Bool
  /-- TEXT_MAX: largest text length an operation accepts, none: no bound (R6), OPEN -/
  textMax : Option Nat
  /-- TERR_POLICY (R122) -/
  terrPolicy : TerrPolicy
  /-- NEG_RULE (R104) -/
  negRule : NegRule
deriving DecidableEq, Repr

/-- FREE VALUE (notes/assumptions/7.md): which of several possible moves the machine makes next when the
schedule in State says nothing about it (R131: "any held request may be chosen"). -/
opaque Config.freeChoice : Nat → Nat

end Sys2Proof
end

