-- ==== Sys2Proof/Syntax.lean ====
section
/-! DEFINITION. The instructions: one constructor for every row of spec/opcode_table.json (12 host
operations, 4 reserved codes, 8 controller command bytes, the data byte, the two bus byte formats,
the frame format and the 9 primitives), and the names of the encodings they stand in. -/

namespace Sys2Proof

/-- The line operand: "a closed enumeration of four values L1, L2, L3, L4" (R56). -/
inductive Line where
  | L1 | L2 | L3 | L4
deriving DecidableEq, Repr

/-- The two independent blocks (R3). -/
inductive Block where
  /-- display protocol encoder -/
  | dpe
  /-- thermocouple frame decoder -/
  | tfd
deriving DecidableEq, Repr

/-- The formats of spec/30_encoding.md, the "format" column of the opcode table. -/
inductive Format where
  /-- OPW: host operation word with its operands beside it (R58) -/
  | opw
  /-- LCDCMD: controller command byte (R52) -/
  | lcdCmd
  /-- LCDDATA: controller data byte (R51) -/
  | lcdData
  /-- BUSBYTE: bus byte of a nibble transaction (R46) -/
  | busByte
  /-- RAWBL: raw backlight byte (R50) -/
  | rawBl
  /-- FRAME: converter frame (R59) -/
  | frame
deriving DecidableEq, Repr

/-- One constructor per row of spec/opcode_table.json. -/
inductive Instr where
  -- the seven operations of the DPE (spec/41_display_operations.md) and its reserved code
  | init
  | writeChar (c : Byte)
  | displayString (text : List Byte) (line : Line)
  | displayStringAt (text : List Byte) (line : Line) (col : Byte)
  | clear
  | backlight (on : Bool)
  | loadCustomChars (glyphs : List (List Byte))
  | reserved7
  -- the operations of the TFD (spec/42_thermocouple_decoder.md) and its reserved codes
  | readFrame
  | getTemperature
  | internalCelsius (raw : RawCode)
  | thermocoupleCelsius (raw : RawCode)
  | decode (word : FrameWord)
  | reservedD
  | reservedE
  | reservedF
  -- the logical bytes the DPE emits (R52, R53, R51)
  | cmdClear
  | cmdHome
  | cmdReset4
  | cmdEntry
  | cmdDispctl
  | cmdFuncset
  | setCgramByte (a : BitVec 6)
  | setDdramByte (a : BitVec 7)
  | data (v : Byte)
  -- the bus bytes (R46, R50): d data nibble, b backlight, e enable, w read/write, r register-select
  | busByte (d : Nibble) (b e w r : Bool)
  | rawBacklight (b : Bool)
  -- the frame word (R59), fields from bit 31 down: T, t, x, f, I, i, y, c
  | frame (tSign : Bool) (tMag : BitVec 13) (x f iSign : Bool) (iMag : BitVec 11) (y : Bool) (c : BitVec 3)
  -- the primitives of spec/40_display_primitives.md, which have no encoding
  | emit (b : Byte)
  | pause (t : Nat)
  | strobe (n : Nibble) (rs : Bool)
  | write4 (n : Nibble) (rs : Bool)
  | send (v : Byte) (rs : Bool)
  | sendCmd (v : Byte)
  | sendData (v : Byte)
  | setDdram (a : BitVec 7)
  | setCgram (a : BitVec 6)
deriving DecidableEq, Repr

/-- Why a row's bytes are not the bytes of an instruction; each is a rejection by name. -/
inductive DecodeError where
  /-- there is no byte at all -/
  | empty
  /-- bits 7..4 of the byte that carries the 4-bit op are not 0 (notes/assumptions/3.md) -/
  | opHighBits
  /-- more or fewer operand bytes beside op than R58 gives the operation -/
  | operandCount
  /-- bits 7..2 of the byte that carries the 2-bit ln are not 0 -/
  | lineHighBits
  /-- bits 7..1 of the byte that carries the 1-bit on are not 0 -/
  | onHighBits
  /-- bits 7..4 of the byte that carries the 4-bit g are not 0 -/
  | glyphCountHighBits
  /-- a command byte that the DPE never emits (R63) -/
  | commandNotEmitted
  /-- a byte outside the pattern 0000b000 of R50 -/
  | notRawBacklight
  /-- not exactly one byte for a byte format, not exactly four for a frame (R64) -/
  | length
deriving DecidableEq, Repr

end Sys2Proof
end

