-- ==== Sys2Proof/WellFormed.lean ====
section
/-! DEFINITION. Which instructions and which parameter values are well formed: the operand domains the
spec gives that the operand types do not already enforce. -/

namespace Sys2Proof

/-- The operand of send_cmd: "8 bits, one of the values of 30_encoding.md rule R52" (R76), at the
values of R52's table. -/
def commandValue (v : Byte) : Bool :=
  [0x03#8, 0x02#8, 0x28#8, 0x0C#8, 0x01#8, 0x06#8, 0x40#8].contains v || v.getLsbD 7

/-- Well-formed instructions. A glyph list is well formed when the operation word can carry it: a
4-bit count g and 8 * g row bytes (R58); a list of 9 to 15 glyphs is well formed and refused when it
runs (R62, R124). -/
def Instr.wf : Instr → Bool
  | .loadCustomChars glyphs => decide (glyphs.length ≤ 15) && glyphs.all fun g => g.length == 8
  | .busByte _ _ _ w _ => !w                       -- R46: "the DPE always writes 0"
  | .pause t => [100, 500, 200].contains t         -- R72: one of T_SETUP, T_HOLD, T_SETTLE, T_INIT
  | .sendCmd v => commandValue v
  | .init | .writeChar _ | .displayString _ _ | .displayStringAt _ _ _ | .clear | .backlight _
  | .reserved7 | .readFrame | .getTemperature | .internalCelsius _ | .thermocoupleCelsius _
  | .decode _ | .reservedD | .reservedE | .reservedF | .cmdClear | .cmdHome | .cmdReset4 | .cmdEntry
  | .cmdDispctl | .cmdFuncset | .setCgramByte _ | .setDdramByte _ | .data _ | .rawBacklight _
  | .frame _ _ _ _ _ _ _ _ | .emit _ | .strobe _ _ | .write4 _ _ | .send _ _ | .sendData _
  | .setDdram _ | .setCgram _ => true

/-- R46: "The masks must be four distinct single bits within bits 3..0". -/
def Config.masksOk (c : Config) : Bool :=
  let masks := [c.rsMask, c.rwMask, c.enMask, c.blMask]
  masks.all (fun m => [0x01#8, 0x02#8, 0x04#8, 0x08#8].contains m) && decide masks.Nodup

end Sys2Proof
end

