-- ==== Sys2Proof/Decode.lean ====
section
/-! DEFINITION. From bytes to instructions (decodeRow, total, rejecting by name) and from instructions
to bytes (encode), both written from the tables of spec/30_encoding.md: the host operation word
with its operands beside it (R58), the controller bytes (R52, R53, R51), the bus bytes (R46, R50)
and the frame (R59). The primitives have no encoding ("none" in the opcode table), so nothing
decodes to one and encode answers none for it. -/

namespace Sys2Proof

/-! ## Bit fields -/

/-- The bits hi..lo of v, w of them from bit lo up (R7). -/
def bitsAt (w lo : Nat) {n : Nat} (v : BitVec n) : BitVec w := v.extractLsb' lo w

/-- One bit as a value of a wider word, at place k. -/
def bitTo (n k : Nat) (b : Bool) : BitVec n := if b then 1#n <<< k else 0#n

/-- A field as part of a wider word, from bit k up. -/
def fieldTo (n k : Nat) {w : Nat} (v : BitVec w) : BitVec n := v.setWidth n <<< k

/-- R102: (byte0 << 24) | (byte1 << 16) | (byte2 << 8) | byte3, the bytes taken as unsigned. -/
def assembleBytes (b0 b1 b2 b3 : Byte) : FrameWord :=
  fieldTo 32 24 b0 ||| fieldTo 32 16 b1 ||| fieldTo 32 8 b2 ||| fieldTo 32 0 b3

/-- The four bytes of a 32-bit word, most significant first (R38). -/
def wordBytes (w : FrameWord) : List Byte :=
  [bitsAt 8 24 w, bitsAt 8 16 w, bitsAt 8 8 w, bitsAt 8 0 w]

/-- The 16-bit operand raw from its two bytes, most significant first (notes/assumptions/3.md). -/
def assembleRaw (hi lo : Byte) : RawCode := fieldTo 16 8 hi ||| fieldTo 16 0 lo

/-- The two bytes of a 16-bit operand, most significant first. -/
def rawBytes (r : RawCode) : List Byte := [bitsAt 8 8 r, bitsAt 8 0 r]

/-- The 2-bit field ln = line number - 1 (R56). -/
def Line.ln : Line → BitVec 2
  | .L1 => 0b00#2
  | .L2 => 0b01#2
  | .L3 => 0b10#2
  | .L4 => 0b11#2

/-- The line of a 2-bit field ln (R56). -/
def Line.ofLn (ln : BitVec 2) : Line :=
  if ln = 0b00#2 then .L1 else if ln = 0b01#2 then .L2 else if ln = 0b10#2 then .L3 else .L4

/-! ## Decoding -/

/-- A byte that carries a field of w bits in its low bits and zeros above (notes/assumptions/3.md). -/
def lowField (w : Nat) (why : DecodeError) (b : Byte) : Except DecodeError (BitVec w) :=
  if b.toNat < 2 ^ w then .ok (b.setWidth w) else .error why

/-- The row stream of loadCustomChars cut into g glyphs: each but the last takes 8 rows, the last
takes what is left, so a stream that is not 8 * g bytes long gives a glyph that has not 8 rows
(which the operation refuses, R124); rows with no glyph to hold them are no operand. -/
def cutGlyphs : Nat → List Byte → Except DecodeError (List (List Byte))
  | 0, [] => .ok []
  | 0, _ :: _ => .error .operandCount
  | 1, rows => .ok [rows]
  | g + 2, rows => (cutGlyphs (g + 1) (rows.drop 8)).map (rows.take 8 :: ·)

/-- The host operation of a 4-bit code and the bytes beside it (R58). The reserved codes are
instructions of their own: a request with one is refused whatever stands beside it (R62). -/
def decodeOp (op : BitVec 4) (beside : List Byte) : Except DecodeError Instr :=
  match op.toNat, beside with
  | 0x0, [] => .ok .init
  | 0x1, [c] => .ok (.writeChar c)
  | 0x2, ln :: text => do return .displayString text (.ofLn (← lowField 2 .lineHighBits ln))
  | 0x3, ln :: col :: text => do return .displayStringAt text (.ofLn (← lowField 2 .lineHighBits ln)) col
  | 0x4, [] => .ok .clear
  | 0x5, [on] => do return .backlight ((← lowField 1 .onHighBits on).getLsbD 0)
  | 0x6, g :: rows => do return .loadCustomChars (← cutGlyphs (← lowField 4 .glyphCountHighBits g).toNat rows)
  | 0x7, _ => .ok .reserved7
  | 0x8, [] => .ok .readFrame
  | 0x9, [] => .ok .getTemperature
  | 0xA, [hi, lo] => .ok (.internalCelsius (assembleRaw hi lo))
  | 0xB, [hi, lo] => .ok (.thermocoupleCelsius (assembleRaw hi lo))
  | 0xC, [b0, b1, b2, b3] => .ok (.decode (assembleBytes b0 b1 b2 b3))
  | 0xD, _ => .ok .reservedD
  | 0xE, _ => .ok .reservedE
  | 0xF, _ => .ok .reservedF
  | _, _ => .error .operandCount

/-- The host operation word: the byte that carries op, then the bytes beside it. -/
def decodeOpw : List Byte → Except DecodeError Instr
  | [] => .error .empty
  | op :: beside => do decodeOp (← lowField 4 .opHighBits op) beside

/-- The controller command bytes the DPE emits (R52; patterns 01aaaaaa and 1aaaaaaa of R53). -/
def decodeCommand (v : Byte) : Except DecodeError Instr :=
  if v.getLsbD 7 then .ok (.setDdramByte (bitsAt 7 0 v))
  else if v.getLsbD 6 then .ok (.setCgramByte (bitsAt 6 0 v))
  else if v = 0x01#8 then .ok .cmdClear
  else if v = 0x02#8 then .ok .cmdHome
  else if v = 0x03#8 then .ok .cmdReset4
  else if v = 0x06#8 then .ok .cmdEntry
  else if v = 0x0C#8 then .ok .cmdDispctl
  else if v = 0x28#8 then .ok .cmdFuncset
  else .error .commandNotEmitted

/-- A bus byte, pattern ddddbewr (R46). DESIGN CHOICE (notes/assumptions/22.md): the pattern is read whole, the
read/write bit 1 too, which the DPE never writes (R63) and WellFormed refuses. -/
def decodeBusByte (b : Byte) : Instr :=
  .busByte (bitsAt 4 4 b) (b.getLsbD 3) (b.getLsbD 2) (b.getLsbD 1) (b.getLsbD 0)

/-- The raw backlight byte, pattern 0000b000 (R50). -/
def decodeRawBacklight (b : Byte) : Except DecodeError Instr :=
  if b &&& 0xF7#8 = 0x00#8 then .ok (.rawBacklight (b.getLsbD 3)) else .error .notRawBacklight

/-- The fields of a frame word, pattern TtttttttttttttxfIiiiiiiiiiiiyccc (R59). -/
def decodeFrameWord (w : FrameWord) : Instr :=
  .frame (w.getLsbD 31) (bitsAt 13 18 w) (w.getLsbD 17) (w.getLsbD 16) (w.getLsbD 15) (bitsAt 11 4 w)
    (w.getLsbD 3) (bitsAt 3 0 w)

/-- The decoder: total on any bytes in any format. -/
def decodeRow : Format → List Byte → Except DecodeError Instr
  | .opw, bytes => decodeOpw bytes
  | .lcdCmd, [v] => decodeCommand v
  | .lcdData, [v] => .ok (.data v)
  | .busByte, [b] => .ok (decodeBusByte b)
  | .rawBl, [b] => decodeRawBacklight b
  | .frame, [b0, b1, b2, b3] => .ok (decodeFrameWord (assembleBytes b0 b1 b2 b3))
  | .lcdCmd, _ | .lcdData, _ | .busByte, _ | .rawBl, _ | .frame, _ => .error .length

/-! ## Encoding -/

/-- The frame word of its fields (R59). -/
def frameWordOf (tSign : Bool) (tMag : BitVec 13) (x f iSign : Bool) (iMag : BitVec 11) (y : Bool)
    (c : BitVec 3) : FrameWord :=
  bitTo 32 31 tSign ||| fieldTo 32 18 tMag ||| bitTo 32 17 x ||| bitTo 32 16 f ||| bitTo 32 15 iSign
    ||| fieldTo 32 4 iMag ||| bitTo 32 3 y ||| fieldTo 32 0 c

/-- The bus byte of its fields at the bit places of R46's table. -/
def busByteOfFields (d : Nibble) (b e w r : Bool) : Byte :=
  fieldTo 8 4 d ||| bitTo 8 3 b ||| bitTo 8 2 e ||| bitTo 8 1 w ||| bitTo 8 0 r

/-- The bytes of an instruction and the format they stand in; none for a primitive. -/
def encode : Instr → Option (Format × List Byte)
  | .init => some (.opw, [0x0])
  | .writeChar c => some (.opw, [0x1, c])
  | .displayString text line => some (.opw, 0x2 :: line.ln.setWidth 8 :: text)
  | .displayStringAt text line col => some (.opw, 0x3 :: line.ln.setWidth 8 :: col :: text)
  | .clear => some (.opw, [0x4])
  | .backlight on => some (.opw, [0x5, bitTo 8 0 on])
  | .loadCustomChars glyphs => some (.opw, 0x6 :: BitVec.ofNat 8 glyphs.length :: glyphs.flatten)
  | .reserved7 => some (.opw, [0x7])
  | .readFrame => some (.opw, [0x8])
  | .getTemperature => some (.opw, [0x9])
  | .internalCelsius raw => some (.opw, 0xA :: rawBytes raw)
  | .thermocoupleCelsius raw => some (.opw, 0xB :: rawBytes raw)
  | .decode word => some (.opw, 0xC :: wordBytes word)
  | .reservedD => some (.opw, [0xD])
  | .reservedE => some (.opw, [0xE])
  | .reservedF => some (.opw, [0xF])
  | .cmdClear => some (.lcdCmd, [0x01])
  | .cmdHome => some (.lcdCmd, [0x02])
  | .cmdReset4 => some (.lcdCmd, [0x03])
  | .cmdEntry => some (.lcdCmd, [0x06])
  | .cmdDispctl => some (.lcdCmd, [0x0C])
  | .cmdFuncset => some (.lcdCmd, [0x28])
  | .setCgramByte a => some (.lcdCmd, [0x40#8 ||| fieldTo 8 0 a])
  | .setDdramByte a => some (.lcdCmd, [0x80#8 ||| fieldTo 8 0 a])
  | .data v => some (.lcdData, [v])
  | .busByte d b e w r => some (.busByte, [busByteOfFields d b e w r])
  | .rawBacklight b => some (.rawBl, [bitTo 8 3 b])
  | .frame tSign tMag x f iSign iMag y c =>
      some (.frame, wordBytes (frameWordOf tSign tMag x f iSign iMag y c))
  | .emit _ | .pause _ | .strobe _ _ | .write4 _ _ | .send _ _ | .sendCmd _ | .sendData _
  | .setDdram _ | .setCgram _ => none

/-! ## Which block, and who may ask -/

/-- The block an instruction belongs to (the "block" column of the opcode table, R58). -/
def Instr.block : Instr → Block
  | .readFrame | .getTemperature | .internalCelsius _ | .thermocoupleCelsius _ | .decode _
  | .reservedD | .reservedE | .reservedF | .frame _ _ _ _ _ _ _ _ => .tfd
  | .init | .writeChar _ | .displayString _ _ | .displayStringAt _ _ _ | .clear | .backlight _
  | .loadCustomChars _ | .reserved7 | .cmdClear | .cmdHome | .cmdReset4 | .cmdEntry | .cmdDispctl
  | .cmdFuncset | .setCgramByte _ | .setDdramByte _ | .data _ | .busByte _ _ _ _ _ | .rawBacklight _
  | .emit _ | .pause _ | .strobe _ _ | .write4 _ _ | .send _ _ | .sendCmd _ | .sendData _
  | .setDdram _ | .setCgram _ => .dpe

/-- The block that bytes of a format belong to: for a host operation word, op 0x0 to 0x7 is the DPE's
and 0x8 to 0xF the TFD's (R58). -/
def blockOf : Format → List Byte → Block
  | .opw, op :: _ => if op.getLsbD 3 then .tfd else .dpe
  | .opw, [] => .dpe
  | .frame, _ => .tfd
  | .lcdCmd, _ | .lcdData, _ | .busByte, _ | .rawBl, _ => .dpe

/-- The instructions a host can request on a command port: the rows of R58's table. "A primitive is
not a host operation: it has no operation code, cannot be requested on the command port"
(spec/40_display_primitives.md), and the byte and frame formats stand at other ports. -/
def Instr.isHostOp : Instr → Bool
  | .init | .writeChar _ | .displayString _ _ | .displayStringAt _ _ _ | .clear | .backlight _
  | .loadCustomChars _ | .reserved7 | .readFrame | .getTemperature | .internalCelsius _
  | .thermocoupleCelsius _ | .decode _ | .reservedD | .reservedE | .reservedF => true
  | .cmdClear | .cmdHome | .cmdReset4 | .cmdEntry | .cmdDispctl
  | .cmdFuncset | .setCgramByte _ | .setDdramByte _ | .data _ | .busByte _ _ _ _ _ | .rawBacklight _
  | .frame _ _ _ _ _ _ _ _ | .emit _ | .pause _ | .strobe _ _ | .write4 _ _ | .send _ _
  | .sendCmd _ | .sendData _ | .setDdram _ | .setCgram _ => false

/-- The nine primitives of spec/40_display_primitives.md. -/
def Instr.isPrimitive : Instr → Bool
  | .emit _ | .pause _ | .strobe _ _ | .write4 _ _ | .send _ _ | .sendCmd _ | .sendData _
  | .setDdram _ | .setCgram _ => true
  | .init | .writeChar _ | .displayString _ _ | .displayStringAt _ _ _ | .clear | .backlight _
  | .loadCustomChars _ | .reserved7 | .readFrame | .getTemperature | .internalCelsius _
  | .thermocoupleCelsius _ | .decode _ | .reservedD | .reservedE | .reservedF | .cmdClear | .cmdHome
  | .cmdReset4 | .cmdEntry | .cmdDispctl | .cmdFuncset | .setCgramByte _ | .setDdramByte _ | .data _
  | .busByte _ _ _ _ _ | .rawBacklight _ | .frame _ _ _ _ _ _ _ _ => false

/-! ## Words of the opcode table -/

/-- The operand bytes beside a 4-bit op when every operand is 0 and every stream is empty (R58). -/
def zeroOperands (op : Nat) : List Byte :=
  match op with
  | 0x1 | 0x2 | 0x5 | 0x6 => [0]
  | 0x3 | 0xA | 0xB => [0, 0]
  | 0xC => [0, 0, 0, 0]
  | _ => []

/-- The format and bytes of a word of the opcode table (notes/assumptions/4.md). A 32-bit word is a
frame, sent most significant byte first (R38). A word of up to 8 bits does not say its format: it
is read as a host operation code where it is one (0x0 to 0xF), else as a controller command byte
where the DPE emits it, else as a data byte. -/
def tableItem (nbits w : Nat) : Option (Format × List Byte) :=
  if nbits = 32 ∧ w < 2 ^ 32 then some (.frame, wordBytes (BitVec.ofNat 32 w))
  else if nbits ≤ 8 ∧ w < 2 ^ nbits then
    if w < 16 then some (.opw, BitVec.ofNat 8 w :: zeroOperands w)
    else match decodeCommand (BitVec.ofNat 8 w) with
      | .ok _ => some (.lcdCmd, [BitVec.ofNat 8 w])
      | .error _ => some (.lcdData, [BitVec.ofNat 8 w])
  else none

/-- The instruction the decoder reads from a word of the opcode table. -/
def decodeTableWord (nbits w : Nat) : Option Instr :=
  match tableItem nbits w with
  | none => none
  | some (f, bytes) => (decodeRow f bytes).toOption

end Sys2Proof
end

