-- ==== Sys2Proof/Machine/Flags.lean ====
section
/-! DEFINITION. The computations on single bits: the control-line bits of a bus byte
(spec/30_encoding.md R47, R50), the sign rule and the fault code of a frame
(spec/42_thermocouple_decoder.md R104, R107). -/

namespace Sys2Proof.Machine

/-- A mask if its bit is set, else 0. -/
def maskIf (on : Bool) (mask : Byte) : Byte := if on then mask else 0

/-- R50: "BL_MASK if on = 1 else 0x00". -/
def rawBacklightByte (cfg : Config) (on : Bool) : Byte := maskIf on cfg.blMask

/-- R47: compose(n, rs, en), with bl for the backlight state on. The read/write bit is never set. -/
def compose (cfg : Config) (on : Bool) (n : Nibble) (rs en : Bool) : Byte :=
  fieldTo 8 4 n ||| maskIf on cfg.blMask ||| maskIf en cfg.enMask ||| maskIf rs cfg.rsMask

/-- A bus byte of given fields (R46), its control bits at the places the masks give. -/
def busByteValue (cfg : Config) (d : Nibble) (b e w r : Bool) : Byte :=
  fieldTo 8 4 d ||| maskIf b cfg.blMask ||| maskIf e cfg.enMask ||| maskIf w cfg.rwMask
    ||| maskIf r cfg.rsMask

/-- R104: neg_N(v), the value of an N-bit field whose sign bit is set. -/
def negN (rule : NegRule) (N v : Nat) : Int :=
  match rule with
  | .formula => -(((2 ^ N - 1 : Int)) - v)
  | .twosComplement => (v : Int) - 2 ^ N

/-- The raw code of a sign bit and an N-bit field (R105, R106). -/
def signedRaw (rule : NegRule) (N : Nat) (sign : Bool) (v : Nat) : Int :=
  if sign then negN rule N v else v

/-- R107: fault(word), the low 3 bits masked by the fault bit. -/
def faultCode (word : FrameWord) : BitVec 3 := if word.getLsbD 16 then bitsAt 3 0 word else 0

end Sys2Proof.Machine
end

