-- ==== Sys2Proof/Machine/Params.lean ====
section
/-! DEFINITION. The constants the source fixes and "not configurable" (spec/00_scope.md R6) and the
values the spec gives the parameters. -/

namespace Sys2Proof.Machine

/-- T_SETUP, minimum wait after the first write of a nibble transaction, in microseconds (R152). -/
def tSetup : Nat := 100

/-- T_HOLD, minimum strobe high-phase hold (R152). -/
def tHold : Nat := 500

/-- T_SETTLE, minimum strobe low-phase settle (R152). -/
def tSettle : Nat := 100

/-- T_INIT, minimum settle after the init handshake (R152). -/
def tInit : Nat := 200

/-- The largest DDRAM address: the address field of the set-address command has 7 bits (R55). -/
def ddramMax : Nat := 0x7F

/-- "up to 8 glyphs x 8 rows" (R124). -/
def maxGlyphs : Nat := 8

/-- The rows of a glyph (R124). -/
def glyphRows : Nat := 8

/-- The values of R6's table. The masks and commands are general knowledge, parameters (R46, R52; log 6);
BL_RESET is OPEN and false here (log 1); TEXT_MAX is OPEN, "none by default" (D9). -/
def defaultConfig : Config where
  rsMask := 0x01
  rwMask := 0x02
  enMask := 0x04
  blMask := 0x08
  cmdReset4 := 0x03
  cmdMode4 := 0x02
  cmdFuncset := 0x28
  cmdDispctl := 0x0C
  cmdClear := 0x01
  cmdEntry := 0x06
  cmdHome := 0x02
  cmdSetDdram := 0x80
  cmdSetCgram := 0x40
  blReset := false
  textMax := none
  terrPolicy := .abort
  negRule := .formula

end Sys2Proof.Machine
end

