-- ==== Sys2Proof/Machine/State.lean ====
section
/-! DEFINITION. The state of the machine as plain data: the four bits the spec gives the DPE
(spec/10_state.md R15 to R18), the operation in progress (R14), the requests, answers and inputs
at the ports (R24 to R26), and the observable traces and responses (spec/20_memory.md R37). The TFD
has no state (R21); its ports and its trace stand here. The blocks have no registers (R13), no
program counter (R14) and no memory (R40, R45). -/

namespace Sys2Proof.Machine

/-- What the collaborator answers to a BusWrite (R25, R31). -/
inductive BusAnswer where
  | ok
  | transportError
  /-- no answer within this step: the operation stays in progress (R140) -/
  | notYet
deriving DecidableEq, Repr

/-- Whether a Wait(t) ends within this step (R35: "at least t, no upper bound"; R161). -/
inductive WaitAnswer where
  | elapsed
  /-- the wait goes on: the operation stays in progress, for ever where it never ends (R140, spec/93 U12) -/
  | notYet
deriving DecidableEq, Repr

/-- The DPE's bus-write port and its waits (R25, R35): the answers to the next bus writes and to every one
after those, and which of the next waits end within a step, and every one after those. -/
structure BusPort where
  answers : List BusAnswer
  after : BusAnswer
  waits : List WaitAnswer
  waitAfter : WaitAnswer
deriving DecidableEq, Repr

/-- What the collaborator answers to a Transfer4 (R26, R33): exactly four bytes or an error. -/
inductive TransferAnswer where
  | frame (b0 b1 b2 b3 : Byte)
  | transportError
  /-- no answer within this step: the request stays outstanding (R140) -/
  | notYet
deriving DecidableEq, Repr

/-- One event of an operation's list that has yet to be issued: a BusWrite or a Wait (R14). -/
inductive Action where
  | write (b : Byte)
  | wait (t : Nat)
deriving DecidableEq, Repr

/-- An event of the DPE's trace (R37). -/
inductive DpeEvent where
  /-- W(b): a BusWrite(b) that returned ok -/
  | W (b : Byte)
  /-- WF(b): a BusWrite(b) that returned TransportError -/
  | WF (b : Byte)
  /-- D(t): a completed Wait(t); t is the minimum, not the time spent -/
  | D (t : Nat)
deriving DecidableEq, Repr

/-- An event of the TFD's trace (R37). -/
inductive TfdEvent where
  /-- X(bytes): a Transfer4 that returned bytes -/
  | X (b0 b1 b2 b3 : Byte)
  /-- XF: a Transfer4 that returned TransportError -/
  | XF
deriving DecidableEq, Repr

/-- What happens when an event list has been issued: nothing more for a primitive run on its own, the
end of the operation (R86) for an operation, with what R87 and R95 write on success. -/
inductive Ending where
  | primitive
  | plain
  | init
  | backlight (on : Bool)
deriving DecidableEq, Repr

/-- The operation in progress: the events not yet issued, the marker op_failed (R71), what its end
does, and the requester its result goes to (R133). It "exists only while busy = 1" (R14). -/
structure InProgress where
  todo : List Action
  failed : Bool
  ending : Ending
  caller : Nat
deriving DecidableEq, Repr

/-- ReadResult (R103): two 16-bit raw codes and a 3-bit fault code. -/
structure ReadResult where
  internalRaw : RawCode
  thermocoupleRaw : RawCode
  faultCode : BitVec 3
deriving DecidableEq, Repr

/-- A value in degrees Celsius as hardware: a 16-bit two's-complement fixed-point word with fracBits
fraction bits (R112). -/
structure Celsius where
  raw : RawCode
  fracBits : Nat
deriving DecidableEq, Repr

/-- The result of an operation, a tagged variant (R121). -/
inductive Result where
  | ok
  | transportError
  | invalidOperand
  | readResult (r : ReadResult)
  | temperature (c : Celsius)
  | fault (code : BitVec 3)
  /-- the value of internalCelsius or thermocoupleCelsius -/
  | celsius (c : Celsius)
deriving DecidableEq, Repr

/-- One response on a command port, to the requester that issued the operation (R24, R133). -/
structure Response where
  caller : Nat
  result : Result
deriving DecidableEq, Repr

/-- What a request carries: an operation by its name, already decoded (R45, R65), or the bytes of a
row of the opcode table; in format opw these are the register-level request of R58. The other formats
are no host requests: they let one row of the table run on its own (notes/assumptions/5.md). -/
inductive Payload where
  | call (i : Instr)
  | encoded (f : Format) (bytes : List Byte)
deriving DecidableEq, Repr

/-- A request held at a command port (R131), with the requester it came from (R135). -/
structure Request where
  caller : Nat
  payload : Payload
deriving DecidableEq, Repr

/-- The machine. Fields marked "model" are the model's own, not the spec's state. -/
structure State where
  /-- the parameters (R6), fixed for the machine -/
  cfg : Config
  /-- backlightOn (R15) -/
  backlightOn : Bool
  /-- busy, the lock (R16) -/
  busy : Bool
  /-- init_done (R17) -/
  initDone : Bool
  /-- terr_seen, sticky (R18) -/
  terrSeen : Bool
  /-- the position within the operation in progress, and op_failed (R14, R71) -/
  inProgress : Option InProgress
  /-- the requests held at the command ports (R131) -/
  requests : List Request
  /-- the requester of the operation being run (R135) -/
  caller : Nat
  /-- model: the choices of the next moves, first one first (R131: any order of grant) -/
  schedule : List Nat
  /-- model: how many choices were taken from Config.freeChoice -/
  freeCount : Nat
  /-- input: the DPE is reset in the next step (R146) -/
  resetAsserted : Bool
  /-- input: what the collaborator answers to bus writes and how time answers to waits (R25, R35) -/
  bus : BusPort
  /-- input: the collaborator's answers to the next transfers (R26) -/
  transferAnswers : List TransferAnswer
  /-- input: its answer to every transfer after those -/
  transferAfter : TransferAnswer
  /-- the DPE's events since reset, in order (R37) -/
  dpeTrace : List DpeEvent
  /-- the TFD's events, in order (R37) -/
  tfdTrace : List TfdEvent
  /-- the responses given on the DPE's command port, in order (R24) -/
  dpeResponses : List Response
  /-- the responses given on the TFD's command port, in order (R26) -/
  tfdResponses : List Response
deriving DecidableEq, Repr

/-- Why the machine stops. No operation of the spec stops it ("No condition stops a block for good",
R140); both faults are about a request that no port of the spec can carry. -/
inductive Fault where
  /-- raised by step: the bytes of a request are those of no row (safe: the spec's ports cannot carry
  such a request) -/
  | unreadableRequest (why : DecodeError)
  /-- raised by step: a request by name for something that is no host operation, a primitive for
  one, which "cannot be requested on the command port" (safe) -/
  | notRequestable
deriving DecidableEq, Repr

/-- Why an instruction has no meaning. -/
inductive Refusal where
  /-- an arm of exec whose instruction is not modelled yet (safe); no arm is left with it -/
  | notModelled (mnemonic : String)
deriving DecidableEq, Repr

/-- The state after reset for given parameters: R28 and R146, with no input from outside but a
collaborator that answers and waits that end (notes/assumptions/2.md). -/
def State.resetWith (c : Config) : State where
  cfg := c
  backlightOn := c.blReset
  busy := false
  initDone := false
  terrSeen := false
  inProgress := none
  requests := []
  caller := 0
  schedule := []
  freeCount := 0
  resetAsserted := false
  bus := ⟨[], .ok, [], .elapsed⟩
  transferAnswers := []
  transferAfter := .frame 0 0 0 0
  dpeTrace := []
  tfdTrace := []
  dpeResponses := []
  tfdResponses := []

/-- The machine right after reset, with the parameter values of R6. -/
def State.reset : State := State.resetWith defaultConfig

end Sys2Proof.Machine
end

