-- ==== Sys2Proof/Machine/Operands.lean ====
section
/-! DEFINITION. The operand forms: line bases and DDRAM addresses, the operand domains and their
checks (spec/30_encoding.md R48, R55; spec/60_exceptions.md R124), the fields and raw codes of a
frame, the Celsius scaling and the derived encoders (spec/42_thermocouple_decoder.md R102 to R115). -/

namespace Sys2Proof.Machine

/-! ## Display operands -/

/-- R55: the fixed line base addresses. -/
def lineBase : Line → Nat
  | .L1 => 0x00
  | .L2 => 0x40
  | .L3 => 0x14
  | .L4 => 0x54

/-- R55: addr(line, col) = base(line) + col, an integer sum. -/
def ddramAddr (line : Line) (col : Byte) : Nat := lineBase line + col.toNat

/-- R90, R124: base(line) + col <= 0x7F. -/
def addrOk (line : Line) (col : Byte) : Bool := decide (ddramAddr line col ≤ ddramMax)

/-- R124: len(text) <= TEXT_MAX, only when TEXT_MAX is set. -/
def textOk (cfg : Config) (text : List Byte) : Bool :=
  match cfg.textMax with
  | none => true
  | some m => decide (text.length ≤ m)

/-- R96, R124: at most 8 glyphs, every glyph exactly 8 rows. -/
def glyphsOk (glyphs : List (List Byte)) : Bool :=
  decide (glyphs.length ≤ maxGlyphs) && glyphs.all fun g => g.length == glyphRows

/-- R48: v[7:4]. -/
def hiNibble (v : Byte) : Nibble := bitsAt 4 4 v

/-- R48: v[3:0]. -/
def loNibble (v : Byte) : Nibble := bitsAt 4 0 v

/-- The command byte CMD_SETDDRAM | a (R78). -/
def setDdramValue (cfg : Config) (a : BitVec 7) : Byte := cfg.cmdSetDdram ||| fieldTo 8 0 a

/-- The command byte CMD_SETCGRAM | a (R79). -/
def setCgramValue (cfg : Config) (a : BitVec 6) : Byte := cfg.cmdSetCgram ||| fieldTo 8 0 a

/-! ## Frames -/

/-- R60: vi = (word >> 4) & 0x7FF. -/
def internalField (word : FrameWord) : Nat := ((word >>> 4) &&& 0x7FF#32).toNat

/-- R60: vt = (word >> 18) & 0x1FFF. -/
def thermocoupleField (word : FrameWord) : Nat := ((word >>> 18) &&& 0x1FFF#32).toNat

/-- R105: internal(word), as an integer. -/
def internalRaw (rule : NegRule) (word : FrameWord) : Int :=
  signedRaw rule 11 (word.getLsbD 15) (internalField word)

/-- R106: thermocouple(word), as an integer. -/
def thermocoupleRaw (rule : NegRule) (word : FrameWord) : Int :=
  signedRaw rule 13 (word.getLsbD 31) (thermocoupleField word)

/-- R103: decode(word), the raw codes delivered as 16-bit two's-complement values (D17). -/
def decodeFrame (rule : NegRule) (word : FrameWord) : ReadResult where
  internalRaw := BitVec.ofInt 16 (Machine.internalRaw rule word)
  thermocoupleRaw := BitVec.ofInt 16 (Machine.thermocoupleRaw rule word)
  faultCode := Machine.faultCode word

/-! ## Celsius -/

/-- R110, R112: internalCelsius(raw), the raw code read with 4 fraction bits. -/
def internalCelsius (raw : RawCode) : Celsius := ⟨raw, 4⟩

/-- R111, R112: thermocoupleCelsius(raw), the raw code read with 2 fraction bits. -/
def thermocoupleCelsius (raw : RawCode) : Celsius := ⟨raw, 2⟩

/-- R112: the value as an exact rational. -/
def celsiusValue (c : Celsius) : Rat := (c.raw.toInt : Rat) / ((2 ^ c.fracBits : Nat) : Rat)

/-- R113: the result of getTemperature() for a decoded frame. -/
def temperatureResult (r : ReadResult) : Result :=
  if r.faultCode = 0 then .temperature (thermocoupleCelsius r.thermocoupleRaw) else .fault r.faultCode

/-! ## Result codes -/

/-- R126: the numeric result codes (the value of a pure function counts as 0 too: log 11). -/
def resultCode : Result → Nat
  | .ok | .readResult _ | .temperature _ | .celsius _ => 0
  | .transportError => 1
  | .invalidOperand => 2
  | .fault _ => 3

/-- R126: "3 Fault with the 3-bit code alongside". -/
def resultFaultCode : Result → Option (BitVec 3)
  | .fault code => some code
  | .ok | .readResult _ | .temperature _ | .celsius _ | .transportError | .invalidOperand => none

/-! ## The derived encoders (R115: for testing only, no operation of the hardware) -/

/-- R115: which x encode_N represents. -/
def representable (rule : NegRule) (N : Nat) (x : Int) : Bool :=
  match rule with
  | .formula => decide (-(2 ^ N - 1 : Int) ≤ x ∧ x ≤ 2 ^ N - 1)
  | .twosComplement => decide (-(2 ^ N : Int) ≤ x ∧ x ≤ 2 ^ N - 1)

/-- R115: encode_N(x) = (s, v). -/
def encodeN (rule : NegRule) (N : Nat) (x : Int) : Bool × Nat :=
  if 0 ≤ x then (false, x.toNat)
  else match rule with
    | .formula => (true, (x + (2 ^ N - 1)).toNat)
    | .twosComplement => (true, (x + 2 ^ N).toNat)

/-- R115: encodeInternal(x) = (s << 15) | (v << 4). -/
def encodeInternal (rule : NegRule) (x : Int) : FrameWord :=
  let (s, v) := encodeN rule 11 x
  bitTo 32 15 s ||| BitVec.ofNat 32 v <<< 4

/-- R115: encodeThermocouple(x) = (s << 31) | (v << 18). -/
def encodeThermocouple (rule : NegRule) (x : Int) : FrameWord :=
  let (s, v) := encodeN rule 13 x
  bitTo 32 31 s ||| BitVec.ofNat 32 v <<< 18

end Sys2Proof.Machine
end

