-- ==== Sys2Proof/Machine/Framing.lean ====
section
/-! DEFINITION. The primitives of spec/40_display_primitives.md as lists of actions, composed with the
backlight state on (R47: "sampled when the byte is composed"), and the bodies of the display
operations built from them (spec/41_display_operations.md). -/

namespace Sys2Proof.Machine

/-- R73: strobe(n, rs). -/
def strobeActions (cfg : Config) (on : Bool) (n : Nibble) (rs : Bool) : List Action :=
  [.write (compose cfg on n rs true), .wait tHold, .write (compose cfg on n rs false), .wait tSettle]

/-- R74: write4(n, rs), one nibble transaction. -/
def write4Actions (cfg : Config) (on : Bool) (n : Nibble) (rs : Bool) : List Action :=
  [.write (compose cfg on n rs false), .wait tSetup] ++ strobeActions cfg on n rs

/-- R75: send(v, rs), one logical byte, high nibble first. -/
def sendActions (cfg : Config) (on : Bool) (v : Byte) (rs : Bool) : List Action :=
  write4Actions cfg on (hiNibble v) rs ++ write4Actions cfg on (loNibble v) rs

/-- R76: send_cmd(v). -/
def sendCmdActions (cfg : Config) (on : Bool) (v : Byte) : List Action := sendActions cfg on v false

/-- R77: send_data(v). -/
def sendDataActions (cfg : Config) (on : Bool) (v : Byte) : List Action := sendActions cfg on v true

/-- R78: set_ddram(a). -/
def setDdramActions (cfg : Config) (on : Bool) (a : BitVec 7) : List Action :=
  sendCmdActions cfg on (setDdramValue cfg a)

/-- R79: set_cgram(a). -/
def setCgramActions (cfg : Config) (on : Bool) (a : BitVec 6) : List Action :=
  sendCmdActions cfg on (setCgramValue cfg a)

/-- Data bytes in order (the loops of R89, R90 and R96). -/
def dataActions (cfg : Config) (on : Bool) (bytes : List Byte) : List Action :=
  bytes.flatMap (sendDataActions cfg on)

/-- R54: the init handshake as command bytes in order. -/
def initCommands (cfg : Config) : List Byte :=
  [cfg.cmdReset4, cfg.cmdReset4, cfg.cmdReset4, cfg.cmdMode4, cfg.cmdFuncset, cfg.cmdDispctl,
    cfg.cmdClear, cfg.cmdEntry]

/-- R87: the body of init(). -/
def initBody (cfg : Config) (on : Bool) : List Action :=
  (initCommands cfg).flatMap (sendCmdActions cfg on) ++ [.wait tInit]

/-- R89, R90: set_ddram(address), then the characters. The address is below 0x80 wherever the body runs. -/
def textBody (cfg : Config) (on : Bool) (address : Nat) (text : List Byte) : List Action :=
  setDdramActions cfg on (BitVec.ofNat 7 address) ++ dataActions cfg on text

/-- R91: the body of clear(). -/
def clearBody (cfg : Config) (on : Bool) : List Action :=
  sendCmdActions cfg on cfg.cmdClear ++ sendCmdActions cfg on cfg.cmdHome

/-- R96: the body of loadCustomChars(glyphs). -/
def glyphBody (cfg : Config) (on : Bool) (glyphs : List (List Byte)) : List Action :=
  setCgramActions cfg on 0 ++ glyphs.flatMap (dataActions cfg on)

end Sys2Proof.Machine
end

