-- ==== Sys2Proof/Machine/Ops.lean ====
section
/-! DEFINITION. The operations every meaning is built from: issuing a list of bus writes and waits under
the error policy (R71, R72, R122), the common frame of a DPE operation with its lock (R86, R131), a
TFD transfer (R101, R123), responses (R24), and reset (R146). Raising a condition is one shared
place: "nothing is saved, no mode changes, no control goes anywhere" (R130), the event list stops,
busy is cleared and the result is given. -/

namespace Sys2Proof.Machine

/-! ## Issuing events -/

/-- The answer to the next bus write. -/
def BusPort.answer (p : BusPort) : BusAnswer := p.answers.headD p.after

/-- Whether the next wait ends within this step. -/
def BusPort.wait (p : BusPort) : WaitAnswer := p.waits.headD p.waitAfter

/-- The port with the answer to a bus write used up. -/
def BusPort.afterWrite (p : BusPort) : BusPort := { p with answers := p.answers.tail }

/-- The port with the answer to a wait used up. -/
def BusPort.afterWait (p : BusPort) : BusPort := { p with waits := p.waits.tail }

/-- What issuing a list of actions leaves: the events produced, the port with the answers not yet used,
whether a write failed, and the actions still to issue when one of them has not completed. -/
structure Run where
  events : List DpeEvent
  port : BusPort
  failed : Bool
  left : Option (List Action)
deriving DecidableEq, Repr

/-- A run with one more event before it. -/
def Run.after (r : Run) (e : DpeEvent) : Run := { r with events := e :: r.events }

/-- A run with a failed write before it. -/
def Run.withFailure (r : Run) : Run := { r with failed := true }

/-- Issues actions in order, each only after the one before it has completed (R36). A write takes the
collaborator's next answer. `W` or `WF` is recorded; after a failed write the policy decides whether
anything more is issued (R71, R122). No write is repeated (R32). `D` is recorded when a wait has ended
(R72). A write that is not answered, or a wait that has not ended, stays the first of the actions
left (R140, R161). -/
def run (policy : TerrPolicy) : List Action → BusPort → Run
  | [], p => ⟨[], p, false, none⟩
  | .wait t :: todo, p =>
    match p.wait with
    | .elapsed => (run policy todo p.afterWait).after (.D t)
    | .notYet => ⟨[], p.afterWait, false, some (.wait t :: todo)⟩
  | .write b :: todo, p =>
    match p.answer with
    | .ok => (run policy todo p.afterWrite).after (.W b)
    | .transportError =>
      match policy with
      | .abort => ⟨[.WF b], p.afterWrite, true, none⟩
      | .continueOn => ((run policy todo p.afterWrite).after (.WF b)).withFailure
    | .notYet => ⟨[], p.afterWrite, false, some (.write b :: todo)⟩

/-! ## Responses and held requests -/

/-- A response on the DPE's command port (R24). -/
def State.respondDpe (s : State) (caller : Nat) (r : Result) : State :=
  { s with dpeResponses := s.dpeResponses ++ [⟨caller, r⟩] }

/-- A response on the TFD's command port (R26). -/
def State.respondTfd (s : State) (caller : Nat) (r : Result) : State :=
  { s with tfdResponses := s.tfdResponses ++ [⟨caller, r⟩] }

/-- The request for i of the current requester is held, "not refused and not dropped" (R131). -/
def State.hold (s : State) (i : Instr) : State :=
  { s with requests := s.requests ++ [⟨s.caller, .call i⟩] }

/-! ## The operation in progress -/

/-- The end of a DPE operation, its result OK or TransportError (R86). -/
def State.endOperation (s : State) (caller : Nat) (failed : Bool) : State :=
  { s with busy := false, inProgress := none }.respondDpe caller (if failed then .transportError else .ok)

/-- The event list has been issued, or has ended early: what the ending does (R86, R87, R95). init_done
and backlightOn are written on success only (R122). -/
def State.finish (s : State) (p : InProgress) (failed : Bool) : State :=
  match p.ending with
  | .primitive => { s with inProgress := none }
  | .plain => s.endOperation p.caller failed
  | .init => { s with initDone := s.initDone || !failed }.endOperation p.caller failed
  | .backlight on => { s with backlightOn := if failed then s.backlightOn else on }.endOperation p.caller failed

/-- The events of a run go to the trace, its failures to terr_seen (R71), its answers are used up. -/
def State.record (s : State) (r : Run) : State :=
  { s with dpeTrace := s.dpeTrace ++ r.events, bus := r.port, terrSeen := s.terrSeen || r.failed }

/-- Issues what the operation in progress has left, up to its end or to a write the collaborator has not
answered or a wait that has not ended; there the operation stays with busy = 1 (R140, spec/93 U12). -/
def State.drive (s : State) : State :=
  match s.inProgress with
  | none => s
  | some p =>
    let r := run s.cfg.terrPolicy p.todo s.bus
    match r.left with
    | some todo => { s.record r with inProgress := some { p with todo := todo, failed := p.failed || r.failed } }
    | none => (s.record r).finish p (p.failed || r.failed)

/-- The DPE accepts a request: its lock is free (R131) and nothing is being issued. -/
def State.dpeIdle (s : State) : Bool := !s.busy && s.inProgress.isNone

/-- The lock is taken and the operation's event list is fixed (R14, R86). -/
def State.accept (s : State) (body : List Action) (ending : Ending) : State :=
  { s with busy := true, inProgress := some ⟨body, false, ending, s.caller⟩ }

/-- R86, the common frame of every DPE operation: held while the block is not free, refused with
InvalidOperand before any event when an operand is outside its domain, else the lock is taken and the
body is issued. -/
def dpeOperation (i : Instr) (valid : Bool) (body : List Action) (ending : Ending) (s : State) :
    Host.Outcome State Fault Refusal :=
  if !s.dpeIdle then .next (s.hold i)
  else if !valid then .next (s.respondDpe s.caller .invalidOperand)
  else .next (s.accept body ending).drive

/-- The actions of a primitive go behind those still to be issued; on their own they are a list with
no lock and no response ("never takes or releases the lock", spec/40_display_primitives.md). -/
def State.enqueue (s : State) (actions : List Action) : State :=
  { s with inProgress := some (match s.inProgress with
      | some p => { p with todo := p.todo ++ actions }
      | none => ⟨actions, false, .primitive, s.caller⟩) }

/-- A primitive: the list of trace events it appends (spec/40_display_primitives.md). -/
def primitive (actions : List Action) (s : State) : Host.Outcome State Fault Refusal :=
  .next (s.enqueue actions).drive

/-! ## The TFD -/

/-- A pure function of the TFD: one response, nothing else (R114). -/
def tfdAnswer (r : Result) (s : State) : Host.Outcome State Fault Refusal :=
  .next (s.respondTfd s.caller r)

/-- An event of the TFD's trace (R37). -/
def State.recordTfd (s : State) (e : TfdEvent) : State := { s with tfdTrace := s.tfdTrace ++ [e] }

/-- The collaborator's next answer to a transfer is used up. -/
def State.takeTransfer (s : State) : State := { s with transferAnswers := s.transferAnswers.tail }

/-- R101, R113, R123: exactly one transfer; on an answer one event and one response. A transfer the
collaborator has not answered leaves the request outstanding (R140). -/
def tfdTransfer (i : Instr) (result : ReadResult → Result) (s : State) : Host.Outcome State Fault Refusal :=
  match s.transferAnswers.headD s.transferAfter with
  | .frame b0 b1 b2 b3 =>
    .next ((s.takeTransfer.recordTfd (.X b0 b1 b2 b3)).respondTfd s.caller
      (result (decodeFrame s.cfg.negRule (assembleBytes b0 b1 b2 b3))))
  | .transportError => .next ((s.takeTransfer.recordTfd .XF).respondTfd s.caller .transportError)
  | .notYet => .next (s.takeTransfer.hold i)

/-! ## Requests and moves -/

/-- The block a request is for (R58). -/
def Payload.block : Payload → Block
  | .call i => i.block
  | .encoded f bytes => blockOf f bytes

/-- A request a host can make: an operation by name, or a host operation word (R24, R26, R58). -/
def Payload.fromHost : Payload → Bool
  | .call i => i.isHostOp
  | .encoded f _ => f == .opw

/-- The instruction a request carries: by name only a host operation, else what the decoder reads. -/
def Payload.fetch : Payload → Except Fault Instr
  | .call i => if i.isHostOp then .ok i else .error .notRequestable
  | .encoded f bytes =>
    match decodeRow f bytes with
    | .ok i => .ok i
    | .error why => .error (.unreadableRequest why)

/-- R146: reset of the DPE. Its state takes the reset values, the operation in progress and its held
requests are discarded, its trace is empty (R28), no event is issued. The TFD is untouched. DESIGN CHOICE
(notes/assumptions/23.md): a requester whose operation or request is discarded gets no response. -/
def State.resetDpe (s : State) : State :=
  { s with
    backlightOn := s.cfg.blReset
    busy := false
    initDone := false
    terrSeen := false
    inProgress := none
    requests := s.requests.filter fun r => r.payload.block == .tfd
    resetAsserted := false
    dpeTrace := [] }

/-- What the machine may do next. -/
inductive Move where
  /-- go on with the operation in progress -/
  | resume
  /-- run the request r; rest stays held -/
  | grant (r : Request) (rest : List Request)
deriving DecidableEq, Repr

/-- Every request the blocks would accept now, with what would stay held: a request to the TFD at any
time, one to the DPE only when it is free (R131, R135). -/
def grants (idle : Bool) : List Request → List (Request × List Request)
  | [] => []
  | r :: rs =>
    (if idle || r.payload.block == .tfd then [(r, rs)] else []) ++
      (grants idle rs).map fun (x, rest) => (x, r :: rest)

/-- All moves open in a state. -/
def State.moves (s : State) : List Move :=
  (if s.inProgress.isSome then [.resume] else []) ++
    (grants s.dpeIdle s.requests).map fun (r, rest) => .grant r rest

/-- The state with a choice used up. -/
def State.chosen (s : State) (schedule : List Nat) (freeCount : Nat) : State :=
  { s with schedule := schedule, freeCount := freeCount }

/-- The state in which a granted request runs: the others stay held, its requester is the current one. -/
def State.serve (s : State) (rest : List Request) (caller : Nat) : State :=
  { s with requests := rest, caller := caller }

/-- The move made next and the state with that choice used up; none when no move is open. The choice
is the schedule's first entry, Config.freeChoice where the schedule is empty and the choice is real
(R131: "which is accepted next is not stated by the source"). -/
def State.choose (s : State) : Option (Move × State) :=
  match s.moves, s.schedule with
  | [], _ => none
  | m :: ms, k :: ks => some ((m :: ms).getD (k % (ms.length + 1)) m, s.chosen ks s.freeCount)
  | [m], [] => some (m, s.chosen [] s.freeCount)
  | m :: ms, [] =>
    some ((m :: ms).getD (Config.freeChoice s.freeCount % (ms.length + 1)) m,
      s.chosen [] (s.freeCount + 1))

end Sys2Proof.Machine
end

