-- ==== Sys2Proof/Machine/Display.lean ====
section
/-! DEFINITION. The meanings of the seven operations of the DPE (spec/41_display_operations.md) and of its
reserved operation code. -/

namespace Sys2Proof.Machine

/-- R87: init(). -/
def execInit (s : State) : Host.Outcome State Fault Refusal :=
  dpeOperation .init true (initBody s.cfg s.backlightOn) .init s

/-- R88: writeChar(c). -/
def execWriteChar (c : Byte) (s : State) : Host.Outcome State Fault Refusal :=
  dpeOperation (.writeChar c) true (sendDataActions s.cfg s.backlightOn c) .plain s

/-- R89: displayString(text, line). -/
def execDisplayString (text : List Byte) (line : Line) (s : State) : Host.Outcome State Fault Refusal :=
  dpeOperation (.displayString text line) (textOk s.cfg text)
    (textBody s.cfg s.backlightOn (lineBase line) text) .plain s

/-- R90: displayStringAt(text, line, col). -/
def execDisplayStringAt (text : List Byte) (line : Line) (col : Byte) (s : State) :
    Host.Outcome State Fault Refusal :=
  dpeOperation (.displayStringAt text line col) (addrOk line col && textOk s.cfg text)
    (textBody s.cfg s.backlightOn (ddramAddr line col) text) .plain s

/-- R91: clear(). -/
def execClear (s : State) : Host.Outcome State Fault Refusal :=
  dpeOperation .clear true (clearBody s.cfg s.backlightOn) .plain s

/-- R95: backlight(on): one raw byte with the new value, then the state on success. -/
def execBacklight (on : Bool) (s : State) : Host.Outcome State Fault Refusal :=
  dpeOperation (.backlight on) true [.write (rawBacklightByte s.cfg on)] (.backlight on) s

/-- R96: loadCustomChars(glyphs). -/
def execLoadCustomChars (glyphs : List (List Byte)) (s : State) : Host.Outcome State Fault Refusal :=
  dpeOperation (.loadCustomChars glyphs) (glyphsOk glyphs) (glyphBody s.cfg s.backlightOn glyphs) .plain s

/-- R62: op 0x7, refused with InvalidOperand, no state change and no event. -/
def execReserved7 (s : State) : Host.Outcome State Fault Refusal :=
  dpeOperation .reserved7 false [] .plain s

end Sys2Proof.Machine
end

