-- ==== Sys2Proof/Machine/Primitives.lean ====
section
/-! DEFINITION. The meanings of the nine primitives (spec/40_display_primitives.md) and of the bytes the
DPE emits: the controller command bytes and the data byte (spec/30_encoding.md R51 to R53), the bus
byte (R46) and the raw backlight byte (R50). Each appends its events and writes no state but
terr_seen. -/

namespace Sys2Proof.Machine

/-- R71: emit(b). DESIGN CHOICE (notes/assumptions/22.md): run on its own it may write any byte, among them
those R63 says the DPE never writes. -/
def execEmit (b : Byte) (s : State) : Host.Outcome State Fault Refusal := primitive [.write b] s

/-- R72: pause(t). DESIGN CHOICE (notes/assumptions/22.md): run on its own t may be none of the DPE's waits. -/
def execPause (t : Nat) (s : State) : Host.Outcome State Fault Refusal := primitive [.wait t] s

/-- R73: strobe(n, rs). DESIGN CHOICE (notes/assumptions/22.md): run on its own, outside a nibble transaction,
its enable byte is one R63 says the DPE never writes there. -/
def execStrobe (n : Nibble) (rs : Bool) (s : State) : Host.Outcome State Fault Refusal :=
  primitive (strobeActions s.cfg s.backlightOn n rs) s

/-- R74: write4(n, rs). -/
def execWrite4 (n : Nibble) (rs : Bool) (s : State) : Host.Outcome State Fault Refusal :=
  primitive (write4Actions s.cfg s.backlightOn n rs) s

/-- R75: send(v, rs). -/
def execSend (v : Byte) (rs : Bool) (s : State) : Host.Outcome State Fault Refusal :=
  primitive (sendActions s.cfg s.backlightOn v rs) s

/-- R76: send_cmd(v). DESIGN CHOICE (notes/assumptions/22.md): run on its own v may be a command that R63 says the
DPE never emits. -/
def execSendCmd (v : Byte) (s : State) : Host.Outcome State Fault Refusal :=
  primitive (sendCmdActions s.cfg s.backlightOn v) s

/-- R77: send_data(v). -/
def execSendData (v : Byte) (s : State) : Host.Outcome State Fault Refusal :=
  primitive (sendDataActions s.cfg s.backlightOn v) s

/-- R78: set_ddram(a). -/
def execSetDdram (a : BitVec 7) (s : State) : Host.Outcome State Fault Refusal :=
  primitive (setDdramActions s.cfg s.backlightOn a) s

/-- R79: set_cgram(a). DESIGN CHOICE (notes/assumptions/22.md): run on its own the address may be other than
0, which R63 says the DPE never emits. -/
def execSetCgram (a : BitVec 6) (s : State) : Host.Outcome State Fault Refusal :=
  primitive (setCgramActions s.cfg s.backlightOn a) s

/-- R52: the command byte CMD_CLEAR. -/
def execCmdClear (s : State) : Host.Outcome State Fault Refusal :=
  primitive (sendCmdActions s.cfg s.backlightOn s.cfg.cmdClear) s

/-- R52: the command byte CMD_HOME. -/
def execCmdHome (s : State) : Host.Outcome State Fault Refusal :=
  primitive (sendCmdActions s.cfg s.backlightOn s.cfg.cmdHome) s

/-- R52: the command byte CMD_RESET4. -/
def execCmdReset4 (s : State) : Host.Outcome State Fault Refusal :=
  primitive (sendCmdActions s.cfg s.backlightOn s.cfg.cmdReset4) s

/-- R52: the command byte CMD_ENTRY. -/
def execCmdEntry (s : State) : Host.Outcome State Fault Refusal :=
  primitive (sendCmdActions s.cfg s.backlightOn s.cfg.cmdEntry) s

/-- R52: the command byte CMD_DISPCTL. -/
def execCmdDispctl (s : State) : Host.Outcome State Fault Refusal :=
  primitive (sendCmdActions s.cfg s.backlightOn s.cfg.cmdDispctl) s

/-- R52: the command byte CMD_FUNCSET. -/
def execCmdFuncset (s : State) : Host.Outcome State Fault Refusal :=
  primitive (sendCmdActions s.cfg s.backlightOn s.cfg.cmdFuncset) s

/-- R53, R79: the command byte CMD_SETCGRAM | a. DESIGN CHOICE (notes/assumptions/22.md): run on its own the
row may carry an address other than 0, which R63 says the DPE never emits. -/
def execSetCgramByte (a : BitVec 6) (s : State) : Host.Outcome State Fault Refusal :=
  primitive (setCgramActions s.cfg s.backlightOn a) s

/-- R53, R78: the command byte CMD_SETDDRAM | a. -/
def execSetDdramByte (a : BitVec 7) (s : State) : Host.Outcome State Fault Refusal :=
  primitive (setDdramActions s.cfg s.backlightOn a) s

/-- R51: a data byte. -/
def execData (v : Byte) (s : State) : Host.Outcome State Fault Refusal :=
  primitive (sendDataActions s.cfg s.backlightOn v) s

/-- R46: one bus write of the byte with these fields. DESIGN CHOICE (notes/assumptions/22.md): run on its own
the row may carry a byte that R46 and R63 say the DPE never writes. -/
def execBusByte (d : Nibble) (b e w r : Bool) (s : State) : Host.Outcome State Fault Refusal :=
  primitive [.write (busByteValue s.cfg d b e w r)] s

/-- R50: one bus write of the raw backlight byte; the state bit belongs to backlight(on), R95. DESIGN CHOICE
(notes/assumptions/22.md): run on its own the row may differ from the bit backlightOn (R63). -/
def execRawBacklight (b : Bool) (s : State) : Host.Outcome State Fault Refusal :=
  primitive [.write (rawBacklightByte s.cfg b)] s

end Sys2Proof.Machine
end

