-- ==== Sys2Proof/Machine/Thermo.lean ====
section
/-! DEFINITION. The meanings of the TFD's operations (spec/42_thermocouple_decoder.md), of the frame row
(R59) and of the TFD's reserved operation codes (R62). None reads or writes the DPE's state (R3). -/

namespace Sys2Proof.Machine

/-- R101: readFrame(). -/
def execReadFrame (s : State) : Host.Outcome State Fault Refusal :=
  tfdTransfer .readFrame .readResult s

/-- R113: getTemperature(). -/
def execGetTemperature (s : State) : Host.Outcome State Fault Refusal :=
  tfdTransfer .getTemperature temperatureResult s

/-- R110: internalCelsius(raw). -/
def execInternalCelsius (raw : RawCode) (s : State) : Host.Outcome State Fault Refusal :=
  tfdAnswer (.celsius (internalCelsius raw)) s

/-- R111: thermocoupleCelsius(raw). -/
def execThermocoupleCelsius (raw : RawCode) (s : State) : Host.Outcome State Fault Refusal :=
  tfdAnswer (.celsius (thermocoupleCelsius raw)) s

/-- R103: decode(word). -/
def execDecode (word : FrameWord) (s : State) : Host.Outcome State Fault Refusal :=
  tfdAnswer (.readResult (decodeFrame s.cfg.negRule word)) s

/-- R62: op 0xD. -/
def execReservedD (s : State) : Host.Outcome State Fault Refusal := tfdAnswer .invalidOperand s

/-- R62: op 0xE. -/
def execReservedE (s : State) : Host.Outcome State Fault Refusal := tfdAnswer .invalidOperand s

/-- R62: op 0xF. -/
def execReservedF (s : State) : Host.Outcome State Fault Refusal := tfdAnswer .invalidOperand s

/-- R59: a frame word given by its fields, decoded as R103 decodes it. -/
def execFrame (tSign : Bool) (tMag : BitVec 13) (x f iSign : Bool) (iMag : BitVec 11) (y : Bool)
    (c : BitVec 3) (s : State) : Host.Outcome State Fault Refusal :=
  tfdAnswer (.readResult (decodeFrame s.cfg.negRule (frameWordOf tSign tMag x f iSign iMag y c))) s

end Sys2Proof.Machine
end

