-- ==== Sys2Proof/Machine/Dispatch.lean ====
section
/-! DEFINITION. One arm per constructor of Instr, each one direct call of its meaning. -/

namespace Sys2Proof.Machine

def exec (i : Instr) (s : State) : Host.Outcome State Fault Refusal :=
  match i with
  | .init => Sys2Proof.Machine.execInit s
  | .writeChar c => Sys2Proof.Machine.execWriteChar c s
  | .displayString text line => Sys2Proof.Machine.execDisplayString text line s
  | .displayStringAt text line col => Sys2Proof.Machine.execDisplayStringAt text line col s
  | .clear => Sys2Proof.Machine.execClear s
  | .backlight on => Sys2Proof.Machine.execBacklight on s
  | .loadCustomChars glyphs => Sys2Proof.Machine.execLoadCustomChars glyphs s
  | .reserved7 => Sys2Proof.Machine.execReserved7 s
  | .readFrame => Sys2Proof.Machine.execReadFrame s
  | .getTemperature => Sys2Proof.Machine.execGetTemperature s
  | .internalCelsius raw => Sys2Proof.Machine.execInternalCelsius raw s
  | .thermocoupleCelsius raw => Sys2Proof.Machine.execThermocoupleCelsius raw s
  | .decode word => Sys2Proof.Machine.execDecode word s
  | .reservedD => Sys2Proof.Machine.execReservedD s
  | .reservedE => Sys2Proof.Machine.execReservedE s
  | .reservedF => Sys2Proof.Machine.execReservedF s
  | .cmdClear => Sys2Proof.Machine.execCmdClear s
  | .cmdHome => Sys2Proof.Machine.execCmdHome s
  | .cmdReset4 => Sys2Proof.Machine.execCmdReset4 s
  | .cmdEntry => Sys2Proof.Machine.execCmdEntry s
  | .cmdDispctl => Sys2Proof.Machine.execCmdDispctl s
  | .cmdFuncset => Sys2Proof.Machine.execCmdFuncset s
  | .setCgramByte a => Sys2Proof.Machine.execSetCgramByte a s
  | .setDdramByte a => Sys2Proof.Machine.execSetDdramByte a s
  | .data v => Sys2Proof.Machine.execData v s
  | .busByte d b e w r => Sys2Proof.Machine.execBusByte d b e w r s
  | .rawBacklight b => Sys2Proof.Machine.execRawBacklight b s
  | .frame tSign tMag x f iSign iMag y c => Sys2Proof.Machine.execFrame tSign tMag x f iSign iMag y c s
  | .emit b => Sys2Proof.Machine.execEmit b s
  | .pause t => Sys2Proof.Machine.execPause t s
  | .strobe n rs => Sys2Proof.Machine.execStrobe n rs s
  | .write4 n rs => Sys2Proof.Machine.execWrite4 n rs s
  | .send v rs => Sys2Proof.Machine.execSend v rs s
  | .sendCmd v => Sys2Proof.Machine.execSendCmd v s
  | .sendData v => Sys2Proof.Machine.execSendData v s
  | .setDdram a => Sys2Proof.Machine.execSetDdram a s
  | .setCgram a => Sys2Proof.Machine.execSetCgram a s

end Sys2Proof.Machine
end

