-- ==== Sys2Proof/Machine/Step.lean ====
section
/-! DEFINITION. One step of the machine: a reset where one is asserted, else the move chosen among those
open, else nothing ("after reset a block idles until the first request", R148). -/

namespace Sys2Proof.Machine

/-- One step. A granted request leaves the held ones, its requester becomes the current one, and its
instruction is executed (R131). -/
def step (s : State) : Host.Outcome State Fault Refusal :=
  if s.resetAsserted then .next s.resetDpe
  else match s.choose with
    | none => .next s
    | some (.resume, s') => .next s'.drive
    | some (.grant r rest, s') =>
      match r.payload.fetch with
      | .error why => .fault why
      | .ok i => exec i (s'.serve rest r.caller)

/-- The state whose next step runs the instruction of a word of the opcode table: a request with that
word's bytes stands first and is chosen, no reset is asserted, and the DPE is free to accept it. -/
def State.withFetchWord (s : State) (nbits w : Nat) : State :=
  let payload := match tableItem nbits w with
    | some (f, bytes) => Payload.encoded f bytes
    | none => Payload.encoded .opw []
  { s with
    requests := ⟨s.caller, payload⟩ :: s.requests
    schedule := 0 :: s.schedule
    resetAsserted := false
    busy := false
    inProgress := none }

end Sys2Proof.Machine
end

