-- ==== Sys2Proof/Machine/TraceReader.lean ====
section
/-! DEFINITION. The decoder from a trace back to logical bytes (spec/40_display_primitives.md R80 (d)): what
the controller's side of the bus can recover from the bytes the DPE wrote. It is no operation of
the hardware. -/

namespace Sys2Proof.Machine

/-- R80 (d): from two first bytes of a pair of nibble transactions, "(first group's bits 7..4) << 4 |
(second group's bits 7..4)". -/
def joinNibbles (a b : Byte) : Byte := fieldTo 8 4 (bitsAt 4 4 a : Nibble) ||| fieldTo 8 0 (bitsAt 4 4 b : Nibble)

/-- R80 (b): a group of three writes with equal bits but the enable bit, which the middle one alone has. -/
def isGroup (cfg : Config) (a b c : Byte) : Bool :=
  a == c && b == a ||| cfg.enMask && a &&& cfg.enMask == 0 && a &&& cfg.rwMask == 0

/-- R80 (d): the logical bytes of a trace with their register-select, none where the trace is not a list
of whole logical bytes with the waits 100, 500, 100 in each group (R80 (e)). -/
def logicalBytes (cfg : Config) : List DpeEvent → Option (List (Byte × Bool))
  | [] => some []
  | .W a1 :: .D t1 :: .W a2 :: .D t2 :: .W a3 :: .D t3 ::
    .W b1 :: .D u1 :: .W b2 :: .D u2 :: .W b3 :: .D u3 :: rest =>
    if isGroup cfg a1 a2 a3 && isGroup cfg b1 b2 b3 && [t1, t2, t3, u1, u2, u3] == [100, 500, 100, 100, 500, 100]
        && a1 &&& cfg.rsMask == b1 &&& cfg.rsMask then
      (logicalBytes cfg rest).map ((joinNibbles a1 b1, a1 &&& cfg.rsMask != 0) :: ·)
    else none
  | _ :: _ => none

end Sys2Proof.Machine
end

