-- ==== Sys2Proof/Safety.lean ====
section
/-! DEFINITION. The terms the claims are stated in: the event lists of the spec's examples written out
(spec/40_display_primitives.md R74, R75), what a failing write makes of a list (R122), which answers
a claim assumes, and the invariants of the machine (the lock, the whole-unit trace, the backlight bit
of every byte). -/

namespace Sys2Proof.Machine

/-! ## Event lists, written out -/

/-- R74: `W(compose(n,rs,0)) D(100) W(compose(n,rs,1)) D(500) W(compose(n,rs,0)) D(100)`. -/
def nibbleEvents (cfg : Config) (on : Bool) (n : Nibble) (rs : Bool) : List DpeEvent :=
  [.W (compose cfg on n rs false), .D 100, .W (compose cfg on n rs true), .D 500,
    .W (compose cfg on n rs false), .D 100]

/-- R75: the twelve events of one logical byte, bits 7..4 of it first. -/
def byteEvents (cfg : Config) (on : Bool) (v : Byte) (rs : Bool) : List DpeEvent :=
  nibbleEvents cfg on (v.extractLsb' 4 4) rs ++ nibbleEvents cfg on (v.extractLsb' 0 4) rs

/-- The events of a command byte (R76). -/
def commandEvents (cfg : Config) (on : Bool) (v : Byte) : List DpeEvent := byteEvents cfg on v false

/-- The events of data bytes in order (R77). -/
def dataEvents (cfg : Config) (on : Bool) (vs : List Byte) : List DpeEvent :=
  vs.flatMap fun v => byteEvents cfg on v true

/-- The events of a display operation that runs with every write answered ok, by the rules R87 to R96;
none for an instruction that is no accepted operation of the DPE. -/
def opEvents (s : State) : Instr → Option (List DpeEvent)
  | .init => some ([s.cfg.cmdReset4, s.cfg.cmdReset4, s.cfg.cmdReset4, s.cfg.cmdMode4, s.cfg.cmdFuncset,
      s.cfg.cmdDispctl, s.cfg.cmdClear, s.cfg.cmdEntry].flatMap (commandEvents s.cfg s.backlightOn) ++ [.D 200])
  | .writeChar c => some (dataEvents s.cfg s.backlightOn [c])
  | .displayString text line =>
    if textOk s.cfg text then
      some (commandEvents s.cfg s.backlightOn (s.cfg.cmdSetDdram ||| BitVec.ofNat 8 (lineBase line))
        ++ dataEvents s.cfg s.backlightOn text)
    else none
  | .displayStringAt text line col =>
    if lineBase line + col.toNat ≤ 0x7F ∧ textOk s.cfg text then
      some (commandEvents s.cfg s.backlightOn (s.cfg.cmdSetDdram ||| BitVec.ofNat 8 (lineBase line + col.toNat))
        ++ dataEvents s.cfg s.backlightOn text)
    else none
  | .clear => some (commandEvents s.cfg s.backlightOn s.cfg.cmdClear
      ++ commandEvents s.cfg s.backlightOn s.cfg.cmdHome)
  | .backlight on => some [.W (if on then s.cfg.blMask else 0)]
  | .loadCustomChars glyphs =>
    if glyphs.length ≤ 8 ∧ ∀ g ∈ glyphs, g.length = 8 then
      some (commandEvents s.cfg s.backlightOn s.cfg.cmdSetCgram ++ dataEvents s.cfg s.backlightOn glyphs.flatten)
    else none
  | _ => none

/-- The events of a primitive, and of a controller byte or bus byte on its own, that runs with every write
answered ok, by the rules R46, R50 to R53 and R71 to R79; none for any other instruction. -/
def primEvents (s : State) : Instr → Option (List DpeEvent)
  | .emit b => some [.W b]
  | .pause t => some [.D t]
  | .strobe n rs => some [.W (compose s.cfg s.backlightOn n rs true), .D 500,
      .W (compose s.cfg s.backlightOn n rs false), .D 100]
  | .write4 n rs => some (nibbleEvents s.cfg s.backlightOn n rs)
  | .send v rs => some (byteEvents s.cfg s.backlightOn v rs)
  | .sendCmd v => some (byteEvents s.cfg s.backlightOn v false)
  | .sendData v | .data v => some (byteEvents s.cfg s.backlightOn v true)
  | .setDdram a | .setDdramByte a =>
      some (byteEvents s.cfg s.backlightOn (s.cfg.cmdSetDdram ||| a.setWidth 8) false)
  | .setCgram a | .setCgramByte a =>
      some (byteEvents s.cfg s.backlightOn (s.cfg.cmdSetCgram ||| a.setWidth 8) false)
  | .cmdClear => some (byteEvents s.cfg s.backlightOn s.cfg.cmdClear false)
  | .cmdHome => some (byteEvents s.cfg s.backlightOn s.cfg.cmdHome false)
  | .cmdReset4 => some (byteEvents s.cfg s.backlightOn s.cfg.cmdReset4 false)
  | .cmdEntry => some (byteEvents s.cfg s.backlightOn s.cfg.cmdEntry false)
  | .cmdDispctl => some (byteEvents s.cfg s.backlightOn s.cfg.cmdDispctl false)
  | .cmdFuncset => some (byteEvents s.cfg s.backlightOn s.cfg.cmdFuncset false)
  | .busByte d b e w r => some [.W (d.setWidth 8 <<< 4 ||| (if b then s.cfg.blMask else 0)
      ||| (if e then s.cfg.enMask else 0) ||| (if w then s.cfg.rwMask else 0) ||| (if r then s.cfg.rsMask else 0))]
  | .rawBacklight b => some [.W (if b then s.cfg.blMask else 0)]
  | _ => none

/-- What the end of an operation writes beside its result: init() and backlight(on) have something to write
(R87, R95), every other operation has nothing. -/
def endingOf : Instr → Ending
  | .init => .init
  | .backlight on => .backlight on
  | _ => .plain

/-- How many bus writes a list of events has. -/
def writeCount (es : List DpeEvent) : Nat :=
  es.countP fun e => match e with | .D _ => false | _ => true

/-- How many waits a list of events has. -/
def waitCount (es : List DpeEvent) : Nat :=
  es.countP fun e => match e with | .D _ => true | _ => false

/-- The sum of the minimum waits of a list of events (R99). -/
def waitSum : List DpeEvent → Nat
  | [] => 0
  | .D t :: es => t + waitSum es
  | _ :: es => waitSum es

/-- A clean list of events whose writes get the given answers one by one (R71): a failed one is a WF. -/
def withFailures : List Bool → List DpeEvent → List DpeEvent
  | _, [] => []
  | ok :: oks, .W b :: es => (if ok then .W b else .WF b) :: withFailures oks es
  | oks, e :: es => e :: withFailures oks es

/-! ## What a claim assumes -/

/-- The answer the collaborator gives to the bus write number k from now. -/
def State.busAnswer (s : State) (k : Nat) : BusAnswer := s.bus.answers.getD k s.bus.after

/-- Whether the wait number k from now ends within the step it is issued in. -/
def State.waitAnswer (s : State) (k : Nat) : WaitAnswer := s.bus.waits.getD k s.bus.waitAfter

/-- The next n bus writes are answered ok and the next m waits end. -/
abbrev State.answersOk (s : State) (n m : Nat) : Prop :=
  (∀ k < n, s.busAnswer k = .ok) ∧ ∀ k < m, s.waitAnswer k = .elapsed

/-- The next bus writes are answered, each ok or failed as the list says, and the next m waits end. -/
abbrev State.answersAre (s : State) (oks : List Bool) (m : Nat) : Prop :=
  (∀ k (h : k < oks.length), s.busAnswer k = if oks[k] then .ok else .transportError) ∧
    ∀ k < m, s.waitAnswer k = .elapsed

/-- An operation goes on after the writes answered so: none failed, or the policy is continue (R122). -/
abbrev State.goesOnAfter (s : State) (oks : List Bool) : Prop :=
  s.cfg.terrPolicy = .continueOn ∨ false ∉ oks

/-- The event e, issued after n more writes and m more waits, does not complete: a write that is not
answered, or a wait that does not end (R140, R161). -/
abbrev State.stallsAt (s : State) (e : DpeEvent) (n m : Nat) : Prop :=
  match e with
  | .W _ => s.busAnswer n = .notYet
  | .D _ => s.waitAnswer m = .notYet
  | .WF _ => False

/-- The answer to the next transfer. -/
def State.transferAnswer (s : State) : TransferAnswer := s.transferAnswers.headD s.transferAfter

/-- The DPE is free: its lock is not held and nothing is being issued (R131). -/
abbrev State.free (s : State) : Prop := s.busy = false ∧ s.inProgress = none

/-- Only requests of hosts are held: operations by name and host operation words (R24, R26, R58). -/
abbrev State.hostOnly (s : State) : Prop := ∀ r ∈ s.requests, r.payload.fromHost = true

/-- The byte of a write. -/
def DpeEvent.byte? : DpeEvent → Option Byte
  | .W b | .WF b => some b
  | .D _ => none

/-- A port with the answers to n bus writes and m waits used up. -/
def BusPort.drop (p : BusPort) (n m : Nat) : BusPort :=
  { p with answers := p.answers.drop n, waits := p.waits.drop m }

/-- The state in which the answers to n bus writes and m waits are used up and the events es appended. -/
def State.wrote (s : State) (n m : Nat) (es : List DpeEvent) : State :=
  { s with bus := s.bus.drop n m, dpeTrace := s.dpeTrace ++ es }

/-- The state after the operation p in progress has ended, with a failed write or with none (R86): on success
init() sets init_done (R87) and backlight(on) sets the backlight bit (R95), and nothing does after a failure
(R122); the result goes to the requester that issued it (R133). -/
def State.ended (s : State) (p : InProgress) (failed : Bool) : State :=
  { s with
    busy := false
    inProgress := none
    initDone := if p.ending = .init ∧ failed = false then true else s.initDone
    backlightOn := match p.ending with
      | .backlight on => if failed then s.backlightOn else on
      | _ => s.backlightOn
    dpeResponses := s.dpeResponses ++ [⟨p.caller, if failed then .transportError else .ok⟩] }

/-- The state after a response r of the DPE to the current requester. -/
def State.answered (s : State) (r : Result) : State :=
  { s with dpeResponses := s.dpeResponses ++ [⟨s.caller, r⟩] }

/-- The state after a response r of the TFD to the current requester. -/
def State.tfdAnswered (s : State) (r : Result) : State :=
  { s with tfdResponses := s.tfdResponses ++ [⟨s.caller, r⟩] }

/-- The state after a transfer that was answered and recorded as the event e. -/
def State.transferred (s : State) (e : TfdEvent) : State :=
  { s with transferAnswers := s.transferAnswers.tail, tfdTrace := s.tfdTrace ++ [e] }

/-! ## Invariants -/

/-- The lock is held exactly while an operation of the DPE is in progress (R16), and an operation in
which a write failed has left terr_seen set (R71). -/
abbrev State.LockInv (s : State) : Prop :=
  (s.busy = true ↔ ∃ p, s.inProgress = some p) ∧
    ∀ p, s.inProgress = some p → p.ending ≠ .primitive ∧ (p.failed = true → s.terrSeen = true)

/-- A whole unit of the DPE's trace: a logical byte, a raw backlight byte, the settle that ends init. -/
inductive BusUnit where
  | byte (v : Byte) (rs : Bool)
  | raw (on : Bool)
  | settle
deriving DecidableEq, Repr

/-- The trace of units, from the backlight state on: every logical byte carries the backlight bit of the
last raw byte before it (R47, R151). -/
def unitTrace (cfg : Config) : Bool → List BusUnit → List DpeEvent
  | _, [] => []
  | on, .byte v rs :: us => byteEvents cfg on v rs ++ unitTrace cfg on us
  | _, .raw on :: us => .W (if on then cfg.blMask else 0) :: unitTrace cfg on us
  | on, .settle :: us => .D 200 :: unitTrace cfg on us

/-- The backlight state after units. -/
def unitLight : Bool → List BusUnit → Bool
  | on, [] => on
  | _, .raw on :: us => unitLight on us
  | on, .byte _ _ :: us => unitLight on us
  | on, .settle :: us => unitLight on us

/-- The event of an action that completes. -/
def Action.event : Action → DpeEvent
  | .write b => .W b
  | .wait t => .D t

/-- The events the operation in progress still has to produce if no write fails. -/
def State.planned (s : State) : List DpeEvent :=
  match s.inProgress with
  | none => []
  | some p => p.todo.map Action.event

/-- The backlight state once the operation in progress has ended OK (R95). -/
def State.plannedLight (s : State) : Bool :=
  match s.inProgress with
  | some ⟨_, _, .backlight on, _⟩ => on
  | _ => s.backlightOn

/-- As long as no write has failed, the DPE's trace with what it still has to issue is a list of whole
units from the reset value of the backlight bit on: no half logical byte, no interleaved nibble, the
cached backlight bit in every byte, the read/write bit in none (R36, R80, R151, R153). -/
def State.TraceInv (s : State) : Prop :=
  s.terrSeen = false →
    ∃ us, s.dpeTrace ++ s.planned = unitTrace s.cfg s.cfg.blReset us ∧
      unitLight s.cfg.blReset us = s.plannedLight

/-- The invariant of a machine whose requests come from hosts. -/
def State.Inv (s : State) : Prop := s.hostOnly ∧ s.LockInv ∧ s.TraceInv

end Sys2Proof.Machine
end

