-- ==== Sys2Proof/Certificates/Slice0/Obligations.lean ====
section
/-! DEFINITION. The statements for the provers. Each holds for every state and so for every value of the
parameters in it, for every answer of the collaborator and for every held request; what a statement
assumes it says on the state and the operands alone. -/

open Sys2Proof Sys2Proof.Machine

/-! ## Bytes and encodings -/

/-- R46, R47: with four distinct single-bit masks the composed byte has the nibble in bits 7..4, each of
the three control bits set exactly as asked, and never the read/write bit. -/
def Obligations.ComposeSetsExactlyItsBits : Prop :=
  ∀ (cfg : Config) (on : Bool) (n : Nibble) (rs en : Bool), cfg.masksOk = true →
    (compose cfg on n rs en).extractLsb' 4 4 = n ∧
    (compose cfg on n rs en &&& cfg.blMask ≠ 0 ↔ on = true) ∧
    (compose cfg on n rs en &&& cfg.enMask ≠ 0 ↔ en = true) ∧
    (compose cfg on n rs en &&& cfg.rsMask ≠ 0 ↔ rs = true) ∧
    compose cfg on n rs en &&& cfg.rwMask = 0

/-- R41, R55: the line bases, and the source's three example addresses. -/
def Obligations.DisplayAddresses : Prop :=
  (∀ col : Byte, ddramAddr .L1 col = 0x00 + col.toNat ∧ ddramAddr .L2 col = 0x40 + col.toNat ∧
    ddramAddr .L3 col = 0x14 + col.toNat ∧ ddramAddr .L4 col = 0x54 + col.toNat) ∧
  ddramAddr .L2 5 = 0x45 ∧ ddramAddr .L3 0 = 0x14 ∧ ddramAddr .L4 3 = 0x57

/-- Decoding the bytes of a well-formed instruction gives it back, every operand at every value. -/
def Obligations.DecodeOfEncodeIsTheInstruction : Prop :=
  ∀ (i : Instr), i.wf = true → ∀ (f : Format) (bytes : List Byte),
    encode i = some (f, bytes) → decodeRow f bytes = .ok i

/-- The other direction: bytes that decode to an instruction are its only bytes. A request with a reserved
op is refused whatever stands beside it (R62), so the reserved codes are left out. -/
def Obligations.EveryWordHasOneMeaning : Prop :=
  ∀ (f : Format) (bytes : List Byte) (i : Instr), decodeRow f bytes = .ok i →
    i ≠ .reserved7 → i ≠ .reservedD → i ≠ .reservedE → i ≠ .reservedF → encode i = some (f, bytes)

/-- Words written out from R58, R52, R53, R46, R50 and R59 decode to what they stand for. How operand bytes
lie beside op is the model's choice (notes/assumptions/3.md). -/
def Obligations.WrittenWordsDecode : Prop :=
  decodeRow .opw [0x00] = .ok .init ∧
  decodeRow .opw [0x03, 0x01, 0x05, 0x41] = .ok (.displayStringAt [0x41] .L2 5) ∧
  decodeRow .opw [0x0A, 0xF8, 0x01] = .ok (.internalCelsius (-2047)) ∧
  decodeRow .lcdCmd [0b00101000] = .ok .cmdFuncset ∧
  decodeRow .lcdCmd [0b11000101] = .ok (.setDdramByte 0x45) ∧
  decodeRow .busByte [0b01001101] = .ok (.busByte 0x4 true true false true) ∧
  decodeRow .rawBl [0b00001000] = .ok (.rawBacklight true) ∧
  decodeRow .frame [0x01, 0x90, 0x19, 0x00] = .ok (.frame false 100 false false false 400 false 0)

/-- "A primitive is not a host operation: it has no operation code, cannot be requested on the command
port": no host operation word decodes to anything but a host operation, no bytes of any format decode to a
primitive, the primitives are the instructions with no encoding, and a step whose granted request names
something that is no host operation stops. The stop, and that the bytes of another format may be
requested, are the model's choice (notes/assumptions/5.md). -/
def Obligations.OnlyHostOperationsOnTheCommandPort : Prop :=
  (∀ (bytes : List Byte) (i : Instr), decodeRow .opw bytes = .ok i → i.isHostOp = true) ∧
  (∀ (f : Format) (bytes : List Byte) (i : Instr), decodeRow f bytes = .ok i → i.isPrimitive = false) ∧
  (∀ i : Instr, encode i = none ↔ i.isPrimitive = true) ∧
  (∀ i : Instr, i.isPrimitive = true → i.isHostOp = false) ∧
  (∀ (s : State) (k : Nat) (ks : List Nat) (i : Instr) (h : k < s.requests.length),
    s.resetAsserted = false → s.free → s.schedule = k :: ks → s.requests[k].payload = .call i →
    i.isHostOp = false → step s = .fault .notRequestable)

/-! ## Primitives and single bytes -/

/-- R71: emit(b) outside an operation, its write answered ok or failed. -/
def Obligations.EmitRecordsTheWrite : Prop :=
  ∀ (s : State) (b : Byte), s.inProgress = none →
    (s.busAnswer 0 = .ok → exec (.emit b) s = .next (s.wrote 1 0 [.W b])) ∧
    (s.busAnswer 0 = .transportError →
      exec (.emit b) s = .next { s.wrote 1 0 [.WF b] with terrSeen := true })

/-- R72: pause(t) appends D(t) when the wait has ended and cannot fail; a wait that has not ended is still to
come and no D(t) is in the trace (R35, R140). -/
def Obligations.PauseAppendsItsWait : Prop :=
  ∀ (s : State) (t : Nat), s.inProgress = none →
    (s.waitAnswer 0 = .elapsed → exec (.pause t) s = .next (s.wrote 0 1 [.D t])) ∧
    (s.waitAnswer 0 = .notYet → exec (.pause t) s = .next { s.wrote 0 1 [] with
      inProgress := some ⟨[.wait t], false, .primitive, s.caller⟩ })

/-- R73, R74: the events of the enable pulse and of a nibble transaction. -/
def Obligations.StrobeAndNibbleTransaction : Prop :=
  ∀ (s : State) (n : Nibble) (rs : Bool), s.inProgress = none →
    (s.answersOk 2 2 → exec (.strobe n rs) s = .next (s.wrote 2 2
      [.W (compose s.cfg s.backlightOn n rs true), .D 500, .W (compose s.cfg s.backlightOn n rs false), .D 100])) ∧
    (s.answersOk 3 3 → exec (.write4 n rs) s = .next (s.wrote 3 3
      [.W (compose s.cfg s.backlightOn n rs false), .D 100, .W (compose s.cfg s.backlightOn n rs true), .D 500,
        .W (compose s.cfg s.backlightOn n rs false), .D 100]))

/-- R75 to R79: a logical byte is two nibble transactions, high nibble first; the command, data and
set-address primitives send theirs. -/
def Obligations.LogicalBytePrimitives : Prop :=
  ∀ s : State, s.inProgress = none → s.answersOk 6 6 →
    (∀ (v : Byte) (rs : Bool), exec (.send v rs) s = .next (s.wrote 6 6
      (nibbleEvents s.cfg s.backlightOn (v.extractLsb' 4 4) rs ++
        nibbleEvents s.cfg s.backlightOn (v.extractLsb' 0 4) rs))) ∧
    (∀ v : Byte, exec (.sendCmd v) s = .next (s.wrote 6 6 (byteEvents s.cfg s.backlightOn v false))) ∧
    (∀ v : Byte, exec (.sendData v) s = .next (s.wrote 6 6 (byteEvents s.cfg s.backlightOn v true))) ∧
    (∀ a : BitVec 7, exec (.setDdram a) s = .next (s.wrote 6 6
      (byteEvents s.cfg s.backlightOn (s.cfg.cmdSetDdram ||| a.setWidth 8) false))) ∧
    (∀ a : BitVec 6, exec (.setCgram a) s = .next (s.wrote 6 6
      (byteEvents s.cfg s.backlightOn (s.cfg.cmdSetCgram ||| a.setWidth 8) false)))

/-- R51, R52, R53: each controller byte the DPE emits is sent as a whole logical byte, a command with
register-select 0, a data byte with register-select 1. -/
def Obligations.ControllerBytesAreSentWhole : Prop :=
  ∀ s : State, s.inProgress = none → s.answersOk 6 6 →
    exec .cmdClear s = .next (s.wrote 6 6 (byteEvents s.cfg s.backlightOn s.cfg.cmdClear false)) ∧
    exec .cmdHome s = .next (s.wrote 6 6 (byteEvents s.cfg s.backlightOn s.cfg.cmdHome false)) ∧
    exec .cmdReset4 s = .next (s.wrote 6 6 (byteEvents s.cfg s.backlightOn s.cfg.cmdReset4 false)) ∧
    exec .cmdEntry s = .next (s.wrote 6 6 (byteEvents s.cfg s.backlightOn s.cfg.cmdEntry false)) ∧
    exec .cmdDispctl s = .next (s.wrote 6 6 (byteEvents s.cfg s.backlightOn s.cfg.cmdDispctl false)) ∧
    exec .cmdFuncset s = .next (s.wrote 6 6 (byteEvents s.cfg s.backlightOn s.cfg.cmdFuncset false)) ∧
    (∀ a : BitVec 6, exec (.setCgramByte a) s = .next (s.wrote 6 6
      (byteEvents s.cfg s.backlightOn (s.cfg.cmdSetCgram ||| a.setWidth 8) false))) ∧
    (∀ a : BitVec 7, exec (.setDdramByte a) s = .next (s.wrote 6 6
      (byteEvents s.cfg s.backlightOn (s.cfg.cmdSetDdram ||| a.setWidth 8) false))) ∧
    (∀ v : Byte, exec (.data v) s = .next (s.wrote 6 6 (byteEvents s.cfg s.backlightOn v true)))

/-- R46, R50: a bus byte of given fields and the raw backlight byte are one bus write each; neither writes
backlightOn. -/
def Obligations.BusBytesAreOneWrite : Prop :=
  ∀ s : State, s.inProgress = none → s.answersOk 1 0 →
    (∀ (d : Nibble) (b e w r : Bool), exec (.busByte d b e w r) s = .next (s.wrote 1 0
      [.W (d.setWidth 8 <<< 4 ||| (if b then s.cfg.blMask else 0) ||| (if e then s.cfg.enMask else 0)
        ||| (if w then s.cfg.rwMask else 0) ||| (if r then s.cfg.rsMask else 0))])) ∧
    (∀ b : Bool, exec (.rawBacklight b) s = .next (s.wrote 1 0 [.W (if b then s.cfg.blMask else 0)]))

/-- R71 for every primitive, and for every byte row (R46, R50 to R53) run on its own, outside an operation and
with the waits ending: under abort the list ends with the failed write, under continue it runs on;
terr_seen is set, nothing else changes. That a byte row runs on its own, and that none of them gives a
response, is the model's choice (notes/assumptions/5.md). -/
def Obligations.FailedWriteInAPrimitive : Prop :=
  ∀ (s : State) (i : Instr) (es : List DpeEvent), primEvents s i = some es → s.inProgress = none →
    (s.cfg.terrPolicy = .abort → ∀ done b rest, es = done ++ .W b :: rest →
      s.answersOk (writeCount done) (waitCount done) → s.busAnswer (writeCount done) = .transportError →
      exec i s = .next { s.wrote (writeCount done + 1) (waitCount done) (done ++ [.WF b]) with terrSeen := true }) ∧
    (s.cfg.terrPolicy = .continueOn → ∀ oks : List Bool, oks.length = writeCount es → false ∈ oks →
      s.answersAre oks (waitCount es) →
      exec i s = .next { s.wrote oks.length (waitCount es) (withFailures oks es) with terrSeen := true })

/-! ## The operations of the DPE -/

/-- R87: init() on a free DPE with 48 writes answered ok. -/
def Obligations.InitCompletes : Prop :=
  ∀ s : State, s.free → s.answersOk 48 49 →
    exec .init s = .next { (s.wrote 48 49
      ([s.cfg.cmdReset4, s.cfg.cmdReset4, s.cfg.cmdReset4, s.cfg.cmdMode4, s.cfg.cmdFuncset, s.cfg.cmdDispctl,
        s.cfg.cmdClear, s.cfg.cmdEntry].flatMap (fun v => byteEvents s.cfg s.backlightOn v false)
        ++ [.D 200])).answered .ok with initDone := true }

/-- R88: writeChar(c) sends one data byte. -/
def Obligations.WriteCharCompletes : Prop :=
  ∀ (s : State) (c : Byte), s.free → s.answersOk 6 6 →
    exec (.writeChar c) s = .next ((s.wrote 6 6 (byteEvents s.cfg s.backlightOn c true)).answered .ok)

/-- R89: displayString(text, line) sets the line's base address, then sends each character. -/
def Obligations.DisplayStringCompletes : Prop :=
  ∀ (s : State) (text : List Byte) (line : Line), s.free → (∀ m, s.cfg.textMax = some m → text.length ≤ m) →
    s.answersOk (6 * (1 + text.length)) (6 * (1 + text.length)) →
    exec (.displayString text line) s = .next ((s.wrote (6 * (1 + text.length)) (6 * (1 + text.length))
      (byteEvents s.cfg s.backlightOn (s.cfg.cmdSetDdram ||| (match line with
        | .L1 => 0x00#8 | .L2 => 0x40#8 | .L3 => 0x14#8 | .L4 => 0x54#8)) false
        ++ text.flatMap (fun v => byteEvents s.cfg s.backlightOn v true))).answered .ok)

/-- R90: displayStringAt(text, line, col) where base(line) + col <= 0x7F. -/
def Obligations.DisplayStringAtCompletes : Prop :=
  ∀ (s : State) (text : List Byte) (line : Line) (col : Byte), s.free →
    lineBase line + col.toNat ≤ 0x7F → (∀ m, s.cfg.textMax = some m → text.length ≤ m) →
    s.answersOk (6 * (1 + text.length)) (6 * (1 + text.length)) →
    exec (.displayStringAt text line col) s = .next ((s.wrote (6 * (1 + text.length)) (6 * (1 + text.length))
      (byteEvents s.cfg s.backlightOn (s.cfg.cmdSetDdram ||| (BitVec.ofNat 8 (lineBase line) + col)) false
        ++ text.flatMap (fun v => byteEvents s.cfg s.backlightOn v true))).answered .ok)

/-- R91: clear() sends CMD_CLEAR, then CMD_HOME. -/
def Obligations.ClearCompletes : Prop :=
  ∀ s : State, s.free → s.answersOk 12 12 →
    exec .clear s = .next ((s.wrote 12 12 (byteEvents s.cfg s.backlightOn s.cfg.cmdClear false
      ++ byteEvents s.cfg s.backlightOn s.cfg.cmdHome false)).answered .ok)

/-- R95: backlight(on) writes one raw byte with the new value, then remembers it. -/
def Obligations.BacklightCompletes : Prop :=
  ∀ (s : State) (on : Bool), s.free → s.answersOk 1 0 →
    exec (.backlight on) s = .next { (s.wrote 1 0 [.W (if on then s.cfg.blMask else 0)]).answered .ok with
      backlightOn := on }

/-- R96: loadCustomChars(glyphs) for up to 8 glyphs of 8 rows. -/
def Obligations.LoadCustomCharsCompletes : Prop :=
  ∀ (s : State) (glyphs : List (List Byte)), s.free → glyphs.length ≤ 8 → (∀ g ∈ glyphs, g.length = 8) →
    s.answersOk (6 * (1 + 8 * glyphs.length)) (6 * (1 + 8 * glyphs.length)) →
    exec (.loadCustomChars glyphs) s = .next ((s.wrote (6 * (1 + 8 * glyphs.length)) (6 * (1 + 8 * glyphs.length))
      (byteEvents s.cfg s.backlightOn s.cfg.cmdSetCgram false
        ++ glyphs.flatMap (fun g => g.flatMap (fun v => byteEvents s.cfg s.backlightOn v true)))).answered .ok)

/-- R62: a host word with a reserved op is a reserved instruction whatever stands beside op; it is refused with
InvalidOperand, no state change and no event; so is a glyph count above 8, which the operation word can
carry up to 15. How bytes lie beside op, and a row stream of any length, are the model's choice
(notes/assumptions/3.md, 17.md). -/
def Obligations.ReservedOpsAreRefused : Prop :=
  (∀ beside : List Byte, decodeRow .opw (0x07 :: beside) = .ok .reserved7 ∧
    decodeRow .opw (0x0D :: beside) = .ok .reservedD ∧ decodeRow .opw (0x0E :: beside) = .ok .reservedE ∧
    decodeRow .opw (0x0F :: beside) = .ok .reservedF) ∧
  (∀ s : State, s.free → exec .reserved7 s = .next (s.answered .invalidOperand)) ∧
  (∀ (s : State) (i : Instr), i = .reservedD ∨ i = .reservedE ∨ i = .reservedF →
    exec i s = .next (s.tfdAnswered .invalidOperand)) ∧
  (∀ (s : State) (g : Byte) (rows : List Byte) (i : Instr), s.free → 8 < g.toNat →
    decodeRow .opw (0x06 :: g :: rows) = .ok i → exec i s = .next (s.answered .invalidOperand))

/-- R124: an operand outside its domain is refused before any event. -/
def Obligations.OperandsOutsideTheDomainAreRefused : Prop :=
  ∀ s : State, s.free →
    (∀ (text : List Byte) (line : Line) (col : Byte), 0x7F < lineBase line + col.toNat →
      exec (.displayStringAt text line col) s = .next (s.answered .invalidOperand)) ∧
    (∀ (text : List Byte) (line : Line) (col : Byte) (m : Nat), s.cfg.textMax = some m → m < text.length →
      exec (.displayStringAt text line col) s = .next (s.answered .invalidOperand) ∧
      exec (.displayString text line) s = .next (s.answered .invalidOperand)) ∧
    (∀ glyphs : List (List Byte), 8 < glyphs.length ∨ (∃ g ∈ glyphs, g.length ≠ 8) →
      exec (.loadCustomChars glyphs) s = .next (s.answered .invalidOperand))

/-- R131: an operation requested of a DPE that is not free is held: it stays a request of its requester and
issues no event. -/
def Obligations.RequestToABusyEncoderIsHeld : Prop :=
  ∀ (s : State) (i : Instr), i.isHostOp = true → i.block = .dpe → ¬ s.free →
    exec i s = .next { s with requests := s.requests ++ [⟨s.caller, .call i⟩] }

/-- R122, abort: the first failing write ends the operation with TransportError; its events up to that write
are in the trace, the write as WF; init_done and backlightOn are not written. -/
def Obligations.FailedWriteAbortsTheOperation : Prop :=
  ∀ (s : State) (i : Instr) (done : List DpeEvent) (b : Byte) (rest : List DpeEvent),
    opEvents s i = some (done ++ .W b :: rest) → s.free → s.cfg.terrPolicy = .abort →
    s.answersOk (writeCount done) (waitCount done) → s.busAnswer (writeCount done) = .transportError →
    exec i s = .next { (s.wrote (writeCount done + 1) (waitCount done) (done ++ [.WF b])).answered .transportError with
      terrSeen := true }

/-- R122, continue: the remaining events are issued as if the write had succeeded, later writes may fail
too; the result is TransportError; init_done and backlightOn are not written. -/
def Obligations.FailedWriteUnderContinue : Prop :=
  ∀ (s : State) (i : Instr) (es : List DpeEvent) (oks : List Bool), opEvents s i = some es → s.free →
    s.cfg.terrPolicy = .continueOn → oks.length = writeCount es → false ∈ oks →
    s.answersAre oks (waitCount es) →
    exec i s = .next { (s.wrote oks.length (waitCount es) (withFailures oks es)).answered .transportError with
      terrSeen := true }

/-- R16, R140, R161: a write that is not answered, or a wait that does not end, leaves the operation in progress
with busy = 1 and no result; the events before it are in the trace (under continue some of the writes may
have failed), it and the rest are still to come, and the operation will end as its rule says. That the events
before it are issued in one step is the model's choice (notes/assumptions/8.md). -/
def Obligations.UnansweredWriteKeepsTheLock : Prop :=
  ∀ (s : State) (i : Instr) (done : List DpeEvent) (e : DpeEvent) (rest : List DpeEvent) (oks : List Bool),
    opEvents s i = some (done ++ e :: rest) → s.free →
    oks.length = writeCount done → s.goesOnAfter oks → s.answersAre oks (waitCount done) →
    s.stallsAt e (writeCount done) (waitCount done) →
    ∃ todo : List Machine.Action, todo.map Action.event = e :: rest ∧
      exec i s = .next { s.wrote (writeCount (done ++ [e])) (waitCount (done ++ [e])) (withFailures oks done) with
        busy := true
        terrSeen := s.terrSeen || oks.contains false
        inProgress := some ⟨todo, oks.contains false,
          match i with | .init => .init | .backlight on => .backlight on | _ => .plain, s.caller⟩ }

/-- R86, R122, R133: an operation in progress, resumed by a step (the schedule names it, or no request is held),
ends in that step where every event it has left completes, or where a write fails under abort: the lock is
released and the result goes to the requester that issued it. A write that failed, now or before, makes it
TransportError and leaves init_done and backlightOn unwritten. That the events left are issued in one step
is the model's choice (notes/assumptions/8.md), and so is that the schedule names the move (7.md). -/
def Obligations.ResumedOperationEnds : Prop :=
  ∀ (s : State) (p : InProgress), s.resetAsserted = false → s.schedule.head? = some 0 ∨ s.requests = [] →
    s.inProgress = some p → p.ending ≠ .primitive →
    (∀ oks : List Bool, oks.length = writeCount (p.todo.map Action.event) → s.goesOnAfter oks →
      s.answersAre oks (waitCount (p.todo.map Action.event)) →
      step s = .next { (s.wrote oks.length (waitCount (p.todo.map Action.event))
          (withFailures oks (p.todo.map Action.event))).ended p (p.failed || oks.contains false) with
        schedule := s.schedule.tail
        terrSeen := s.terrSeen || oks.contains false }) ∧
    (s.cfg.terrPolicy = .abort → ∀ done b rest, p.todo.map Action.event = done ++ .W b :: rest →
      s.answersOk (writeCount done) (waitCount done) → s.busAnswer (writeCount done) = .transportError →
      step s = .next { (s.wrote (writeCount done + 1) (waitCount done) (done ++ [.WF b])).ended p true with
        schedule := s.schedule.tail
        terrSeen := true })

/-- R15, R17, R18: outside an operation in progress, backlightOn is written by backlight(on) alone, with its
operand; init_done by init() alone, to 1; terr_seen only to 1. -/
def Obligations.WhoWritesTheStatusBits : Prop :=
  ∀ (i : Instr) (s t : State), s.inProgress = none → exec i s = .next t →
    (t.backlightOn ≠ s.backlightOn → ∃ on, i = .backlight on ∧ t.backlightOn = on) ∧
    (t.initDone ≠ s.initDone → i = .init ∧ t.initDone = true) ∧
    (t.terrSeen ≠ s.terrSeen → t.terrSeen = true)

/-- R17, R18: init_done and terr_seen are never cleared except by reset. -/
def Obligations.StatusBitsAreSticky : Prop :=
  ∀ s t : State, s.resetAsserted = false → step s = .next t →
    (s.initDone = true → t.initDone = true) ∧ (s.terrSeen = true → t.terrSeen = true)

/-- R47, R63, R151: whatever the collaborator answers, every byte written by an instruction that composes
its bytes has its backlight bit equal to backlightOn and its read/write bit 0. -/
def Obligations.EveryByteCarriesTheBacklightBit : Prop :=
  ∀ (i : Instr) (s t : State), s.cfg.masksOk = true → s.inProgress = none →
    (∀ on, i ≠ .backlight on) → (∀ on, i ≠ .rawBacklight on) → (∀ d b e w r, i ≠ .busByte d b e w r) →
    (∀ b, i ≠ .emit b) → exec i s = .next t →
    ∃ es, t.dpeTrace = s.dpeTrace ++ es ∧ ∀ e ∈ es, ∀ b, e.byte? = some b →
      (b &&& s.cfg.blMask ≠ 0 ↔ s.backlightOn = true) ∧ b &&& s.cfg.rwMask = 0

/-- R66: displayString(text, line) does exactly what displayStringAt(text, line, 0) does. -/
def Obligations.DisplayStringIsColumnZero : Prop :=
  ∀ (s : State) (text : List Byte) (line : Line), s.free →
    exec (.displayString text line) s = exec (.displayStringAt text line 0) s

/-- R80 (d): the logical bytes and their kinds can be recovered from a clean trace. -/
def Obligations.TraceReaderInvertsTheFraming : Prop :=
  ∀ (cfg : Config) (on : Bool) (bs : List (Byte × Bool)), cfg.masksOk = true →
    logicalBytes cfg (bs.flatMap fun x => byteEvents cfg on x.1 x.2) = some bs

/-- R99: the events, bus writes and minimum wait that each operation appends when no write fails. -/
def Obligations.OperationSizes : Prop :=
  ∀ (i : Instr) (s : State) (es : List DpeEvent), opEvents s i = some es → s.free →
    s.answersOk (writeCount es) (waitCount es) → ∃ t, exec i s = .next t ∧ t.dpeTrace = s.dpeTrace ++ es ∧
    match i with
    | .init => writeCount es = 48 ∧ es.length = 97 ∧ waitSum es = 11400
    | .writeChar _ => writeCount es = 6 ∧ es.length = 12 ∧ waitSum es = 1400
    | .displayString text _ | .displayStringAt text _ _ =>
        writeCount es = 6 + 6 * text.length ∧ es.length = 12 + 12 * text.length ∧
          waitSum es = 1400 + 1400 * text.length
    | .clear => writeCount es = 12 ∧ es.length = 24 ∧ waitSum es = 2800
    | .backlight _ => writeCount es = 1 ∧ es.length = 1 ∧ waitSum es = 0
    | .loadCustomChars glyphs => writeCount es = 6 + 48 * glyphs.length ∧ es.length = 12 + 96 * glyphs.length ∧
          waitSum es = 1400 + 11200 * glyphs.length
    | _ => True

/-! ## The TFD -/

/-- R102: byte0 is most significant, each byte unsigned. -/
def Obligations.FrameAssemblyIsBigEndian : Prop :=
  ∀ b0 b1 b2 b3 : Byte,
    (assembleBytes b0 b1 b2 b3).toNat = b0.toNat * 2 ^ 24 + b1.toNat * 2 ^ 16 + b2.toNat * 2 ^ 8 + b3.toNat ∧
    assembleBytes 0x00 0x19 0x01 0x40 = 0x00190140

/-- R105 with R104: the internal raw code under both rules; under twos_complement it is the signed value of
the 12-bit field. -/
def Obligations.InternalRawCode : Prop :=
  ∀ w : FrameWord,
    ((decodeFrame .formula w).internalRaw.toInt =
      if w.getLsbD 15 then (w.toNat / 2 ^ 4 % 2 ^ 11 : Nat) - (2047 : Int) else (w.toNat / 2 ^ 4 % 2 ^ 11 : Nat)) ∧
    ((decodeFrame .twosComplement w).internalRaw.toInt =
      if w.getLsbD 15 then (w.toNat / 2 ^ 4 % 2 ^ 11 : Nat) - (2048 : Int) else (w.toNat / 2 ^ 4 % 2 ^ 11 : Nat)) ∧
    (decodeFrame .twosComplement w).internalRaw.toInt = (w.extractLsb' 4 12).toInt

/-- R106 with R104: the thermocouple raw code under both rules; under twos_complement it is the signed value
of the 14-bit field. -/
def Obligations.ThermocoupleRawCode : Prop :=
  ∀ w : FrameWord,
    ((decodeFrame .formula w).thermocoupleRaw.toInt =
      if w.getLsbD 31 then (w.toNat / 2 ^ 18 % 2 ^ 13 : Nat) - (8191 : Int) else (w.toNat / 2 ^ 18 % 2 ^ 13 : Nat)) ∧
    ((decodeFrame .twosComplement w).thermocoupleRaw.toInt =
      if w.getLsbD 31 then (w.toNat / 2 ^ 18 % 2 ^ 13 : Nat) - (8192 : Int) else (w.toNat / 2 ^ 18 % 2 ^ 13 : Nat)) ∧
    (decodeFrame .twosComplement w).thermocoupleRaw.toInt = (w.extractLsb' 18 14).toInt

/-- R107, R156: the fault code is the low 3 bits where bit 16 is set and 0 where it is clear. -/
def Obligations.FaultCodeIsMaskedByTheFaultBit : Prop :=
  ∀ (rule : NegRule) (w : FrameWord),
    (w.getLsbD 16 = true → (decodeFrame rule w).faultCode.toNat = w.toNat % 8) ∧
    (w.getLsbD 16 = false → (decodeFrame rule w).faultCode = 0)

/-- R61, R109: each result field depends on its own bits alone, so bits 17 and 3 affect nothing. -/
def Obligations.FrameFieldsAreIndependent : Prop :=
  ∀ (rule : NegRule) (w w' : FrameWord),
    (w.extractLsb' 4 12 = w'.extractLsb' 4 12 →
      (decodeFrame rule w).internalRaw = (decodeFrame rule w').internalRaw) ∧
    (w.extractLsb' 18 14 = w'.extractLsb' 18 14 →
      (decodeFrame rule w).thermocoupleRaw = (decodeFrame rule w').thermocoupleRaw) ∧
    (w.getLsbD 16 = w'.getLsbD 16 → w.extractLsb' 0 3 = w'.extractLsb' 0 3 →
      (decodeFrame rule w).faultCode = (decodeFrame rule w').faultCode)

/-- R109: the two rules differ by exactly the sign bit. -/
def Obligations.NegRulesDifferByTheSign : Prop :=
  ∀ w : FrameWord,
    internalRaw .formula w = internalRaw .twosComplement w + (if w.getLsbD 15 then 1 else 0) ∧
    thermocoupleRaw .formula w = thermocoupleRaw .twosComplement w + (if w.getLsbD 31 then 1 else 0)

/-- R103, R110, R111, R114: the pure operations answer at once, in every state, and change nothing else. -/
def Obligations.PureOperationsComplete : Prop :=
  ∀ s : State,
    (∀ w : FrameWord, exec (.decode w) s = .next (s.tfdAnswered (.readResult
      ⟨BitVec.ofInt 16 (internalRaw s.cfg.negRule w), BitVec.ofInt 16 (thermocoupleRaw s.cfg.negRule w),
        if w.getLsbD 16 then w.extractLsb' 0 3 else 0⟩))) ∧
    (∀ raw : RawCode, exec (.internalCelsius raw) s = .next (s.tfdAnswered (.celsius ⟨raw, 4⟩))) ∧
    (∀ raw : RawCode, exec (.thermocoupleCelsius raw) s = .next (s.tfdAnswered (.celsius ⟨raw, 2⟩)))

/-- R59, R103: a frame given by its fields is decoded field by field; x and y are read by nothing. -/
def Obligations.FrameRowIsDecodedByItsFields : Prop :=
  ∀ (s : State) (tSign : Bool) (tMag : BitVec 13) (x f iSign : Bool) (iMag : BitVec 11) (y : Bool) (c : BitVec 3),
    exec (.frame tSign tMag x f iSign iMag y c) s = .next (s.tfdAnswered (.readResult
      ⟨BitVec.ofInt 16 (if iSign then (match s.cfg.negRule with
          | .formula => (iMag.toNat : Int) - 2047 | .twosComplement => (iMag.toNat : Int) - 2048) else iMag.toNat),
        BitVec.ofInt 16 (if tSign then (match s.cfg.negRule with
          | .formula => (tMag.toNat : Int) - 8191 | .twosComplement => (tMag.toNat : Int) - 8192) else tMag.toNat),
        if f then c else 0⟩))

/-- R110, R111: in every state the answer is the exact value raw * 0.0625, or raw * 0.25, in degrees Celsius,
and nothing else changes. -/
def Obligations.CelsiusIsExact : Prop :=
  ∀ (s : State) (raw : RawCode),
    (∃ c, exec (.internalCelsius raw) s = .next (s.tfdAnswered (.celsius c)) ∧
      celsiusValue c = raw.toInt * (1 / 16 : Rat)) ∧
    (∃ c, exec (.thermocoupleCelsius raw) s = .next (s.tfdAnswered (.celsius c)) ∧
      celsiusValue c = raw.toInt * (1 / 4 : Rat))

/-- R101, R123: readFrame() is one transfer; its bytes are decoded, its failure is the result. -/
def Obligations.ReadFrameCompletes : Prop :=
  ∀ s : State,
    (∀ b0 b1 b2 b3 : Byte, s.transferAnswer = .frame b0 b1 b2 b3 →
      exec .readFrame s = .next ((s.transferred (.X b0 b1 b2 b3)).tfdAnswered
          (.readResult (decodeFrame s.cfg.negRule (assembleBytes b0 b1 b2 b3))))) ∧
    (s.transferAnswer = .transportError →
      exec .readFrame s = .next ((s.transferred .XF).tfdAnswered .transportError))

/-- R113: getTemperature() is one transfer; Fault(code) where the fault code is not 0, else the thermocouple
temperature. -/
def Obligations.GetTemperatureCompletes : Prop :=
  ∀ s : State,
    (∀ b0 b1 b2 b3 : Byte, s.transferAnswer = .frame b0 b1 b2 b3 →
      exec .getTemperature s = .next ((s.transferred (.X b0 b1 b2 b3)).tfdAnswered
          (if (decodeFrame s.cfg.negRule (assembleBytes b0 b1 b2 b3)).faultCode ≠ 0
           then .fault (decodeFrame s.cfg.negRule (assembleBytes b0 b1 b2 b3)).faultCode
           else .temperature ⟨(decodeFrame s.cfg.negRule (assembleBytes b0 b1 b2 b3)).thermocoupleRaw, 2⟩))) ∧
    (s.transferAnswer = .transportError →
      exec .getTemperature s = .next ((s.transferred .XF).tfdAnswered .transportError))

/-- R140 for the TFD: a transfer that is not answered produces no event and no response; the request stays
outstanding (as a held request: the model's form, notes/assumptions/9.md). -/
def Obligations.UnansweredTransferStaysOutstanding : Prop :=
  ∀ (s : State) (i : Instr), i = .readFrame ∨ i = .getTemperature → s.transferAnswer = .notYet →
    exec i s = .next { s with
      transferAnswers := s.transferAnswers.tail
      requests := s.requests ++ [⟨s.caller, .call i⟩] }

/-- R115: decoding what the derived encoders give back is the identity on the representable codes. -/
def Obligations.DecodeInvertsTheEncoders : Prop :=
  ∀ (rule : NegRule) (x : Int),
    (representable rule 11 x = true → internalRaw rule (encodeInternal rule x) = x) ∧
    (representable rule 13 x = true → thermocoupleRaw rule (encodeThermocouple rule x) = x)

/-- R126: the numeric result codes. -/
def Obligations.ResultCodes : Prop :=
  resultCode .ok = 0 ∧ (∀ r, resultCode (.readResult r) = 0) ∧ (∀ c, resultCode (.temperature c) = 0) ∧
    resultCode .transportError = 1 ∧ resultCode .invalidOperand = 2 ∧
    (∀ code, resultCode (.fault code) = 3 ∧ resultFaultCode (.fault code) = some code)

/-! ## The machine -/

/-- R28: what reset leaves, for every value of the parameters. -/
def Obligations.ResetValues : Prop :=
  ∀ c : Config, (State.resetWith c).backlightOn = c.blReset ∧ (State.resetWith c).busy = false ∧
    (State.resetWith c).initDone = false ∧ (State.resetWith c).terrSeen = false ∧
    (State.resetWith c).inProgress = none ∧ (State.resetWith c).dpeTrace = [] ∧ (State.resetWith c).cfg = c

/-- R146: a reset of the DPE sets its state to the reset values, discards the operation in progress and its
held requests, issues no event, and leaves the TFD alone; its trace is empty (R28). That an input makes the
next step a reset, before any other move, and that a discarded request gets no response, are the model's
choice (notes/assumptions/10.md, 23.md). -/
def Obligations.ResetDiscardsTheOperationInProgress : Prop :=
  ∀ s : State, s.resetAsserted = true → step s = .next { s with
    backlightOn := s.cfg.blReset, busy := false, initDone := false, terrSeen := false, inProgress := none,
    dpeTrace := [], resetAsserted := false,
    requests := s.requests.filter fun r => r.payload.block == .tfd }

/-- A step runs the decoded instruction: when the request that is granted carries bytes that decode to i, the
step is exec of i in the state that holds the other requests, with that requester as the current one; and
so is the step of the state withFetchWord makes. That bytes of any format may be requested, that the
schedule names the choice, and how a word of the opcode table is read are the model's choice
(notes/assumptions/5.md, 7.md, 4.md). -/
def Obligations.StepRunsTheDecodedInstruction : Prop :=
  (∀ (s : State) (r : Request) (rest : List Request) (f : Format) (bytes : List Byte) (i : Instr),
    s.resetAsserted = false → s.free → s.requests = r :: rest → (s.schedule.head? = some 0 ∨ rest = []) →
    r.payload = .encoded f bytes → decodeRow f bytes = .ok i →
    step s = exec i { s with requests := rest, caller := r.caller, schedule := s.schedule.tail }) ∧
  (∀ (s : State) (nbits w : Nat) (i : Instr), decodeTableWord nbits w = some i →
    step (s.withFetchWord nbits w) = exec i { s with resetAsserted := false, busy := false, inProgress := none })

/-- R131, R21, R135: any held request that a block accepts may be chosen and runs, the others stay held in
order: every one where the DPE is free, every one to the TFD where it is not ("requires no locking of its
own"), beside going on with the operation in progress. That the schedule in State names the choice, and
by which number, is the model's form (notes/assumptions/7.md). -/
def Obligations.AnyHeldRequestMayBeGranted : Prop :=
  ∀ (s : State) (k : Nat) (ks : List Nat) (i : Instr) (h : k < s.requests.length),
    s.resetAsserted = false → s.requests[k].payload.fetch = .ok i →
    (s.free → s.schedule = k :: ks →
      step s = exec i { s with
        requests := s.requests.eraseIdx k, caller := s.requests[k].caller, schedule := ks }) ∧
    (¬ s.free → s.requests[k].payload.block = .tfd →
      s.schedule = ((s.requests.take k).countP (fun r => r.payload.block == .tfd)
        + if s.inProgress.isSome then 1 else 0) :: ks →
      step s = exec i { s with
        requests := s.requests.eraseIdx k, caller := s.requests[k].caller, schedule := ks })

/-- R131: while busy = 1 no request to the DPE is accepted, refused, dropped or doubled: the requests to the DPE
held after a step are those held before it, in order. -/
def Obligations.RequestsStayHeldWhileBusy : Prop :=
  ∀ s t : State, s.busy = true → s.resetAsserted = false → step s = .next t →
    (t.requests.filter fun r => r.payload.block == .dpe) = s.requests.filter fun r => r.payload.block == .dpe

/-- R148: with no reset, no operation in progress and no request, a step changes nothing. -/
def Obligations.IdleWithoutRequests : Prop :=
  ∀ s : State, s.resetAsserted = false → s.inProgress = none → s.requests = [] → step s = .next s

/-- R3: the two blocks share no state: an instruction of one leaves the state, the trace and the port of the
other as they were. -/
def Obligations.BlocksDoNotInteract : Prop :=
  ∀ (i : Instr) (s t : State), exec i s = .next t →
    (i.block = .dpe → t.transferAnswers = s.transferAnswers ∧ t.tfdTrace = s.tfdTrace ∧
      t.tfdResponses = s.tfdResponses) ∧
    (i.block = .tfd → t.backlightOn = s.backlightOn ∧ t.busy = s.busy ∧ t.initDone = s.initDone ∧
      t.terrSeen = s.terrSeen ∧ t.inProgress = s.inProgress ∧ t.bus = s.bus ∧
      t.dpeTrace = s.dpeTrace ∧ t.dpeResponses = s.dpeResponses)

/-- R140: no instruction stops the machine, and no step does whose held requests can be read. -/
def Obligations.NoConditionStopsTheMachine : Prop :=
  (∀ (i : Instr) (s : State), ∃ t, exec i s = .next t) ∧
  (∀ s : State, (∀ r ∈ s.requests, ∃ i, r.payload.fetch = .ok i) → ∃ t, step s = .next t)

/-- R121: an operation ends with exactly one result, given to its requester, or has not ended: it is held
(R131), or it is in progress with the lock. That a TFD operation whose transfer is not answered is held is
the model's choice (notes/assumptions/9.md). -/
def Obligations.EveryOperationEndsWithOneResult : Prop :=
  ∀ (i : Instr) (s t : State), i.isHostOp = true → exec i s = .next t →
    (∃ r, t.dpeResponses = s.dpeResponses ++ [⟨s.caller, r⟩] ∧ t.tfdResponses = s.tfdResponses ∧
      t.busy = false ∧ i.block = .dpe) ∨
    (∃ r, t.tfdResponses = s.tfdResponses ++ [⟨s.caller, r⟩] ∧ t.dpeResponses = s.dpeResponses ∧
      i.block = .tfd) ∨
    (t.requests = s.requests ++ [⟨s.caller, .call i⟩] ∧ t.dpeResponses = s.dpeResponses ∧
      t.tfdResponses = s.tfdResponses ∧ t.dpeTrace = s.dpeTrace) ∨
    (t.busy = true ∧ (∃ p, t.inProgress = some p ∧ p.caller = s.caller) ∧ t.dpeResponses = s.dpeResponses ∧
      i.block = .dpe)

/-- R32, R37: without a reset a step only appends to the traces and the responses, and no step changes the
parameters. -/
def Obligations.StepsOnlyAppend : Prop :=
  ∀ s t : State, step s = .next t → t.cfg = s.cfg ∧
    (∃ es, t.tfdTrace = s.tfdTrace ++ es) ∧
    (∃ rs, t.tfdResponses = s.tfdResponses ++ rs) ∧ (∃ rs, t.dpeResponses = s.dpeResponses ++ rs) ∧
    (s.resetAsserted = false → ∃ es, t.dpeTrace = s.dpeTrace ++ es)

/-- The invariant of a machine whose requests come from hosts: the lock is held exactly while an operation is
in progress, and as long as no write has failed the trace with what is still to be issued is a list of
whole units, each byte with the cached backlight bit. Every step keeps it. -/
def Obligations.InvariantKeptByEveryStep : Prop :=
  ∀ s t : State, s.Inv → step s = .next t → t.Inv

/-- The invariant holds after reset, for every value of the parameters. -/
def Obligations.InvariantHoldsAtReset : Prop :=
  ∀ c : Config, (State.resetWith c).Inv

/-- R140, R161: an operation in progress, resumed by a step, stays in progress where a write is again not
answered or a wait again does not end: the events before it are issued, under continue some of the writes may
have failed, and the rest, the requester and the ending are kept. That the events up to there are issued in
one step is the model's choice (notes/assumptions/8.md). -/
def Obligations.ResumedOperationWaitsOn : Prop :=
  ∀ (s : State) (p : InProgress) (done : List DpeEvent) (e : DpeEvent) (rest : List DpeEvent) (oks : List Bool),
    s.resetAsserted = false → s.schedule.head? = some 0 ∨ s.requests = [] → s.inProgress = some p →
    p.todo.map Action.event = done ++ e :: rest → oks.length = writeCount done → s.goesOnAfter oks →
    s.answersAre oks (waitCount done) → s.stallsAt e (writeCount done) (waitCount done) →
    ∃ todo : List Machine.Action, todo.map Action.event = e :: rest ∧
      step s = .next { s.wrote (writeCount (done ++ [e])) (waitCount (done ++ [e])) (withFailures oks done) with
        schedule := s.schedule.tail
        terrSeen := s.terrSeen || oks.contains false
        inProgress := some { p with todo := todo, failed := p.failed || oks.contains false } }
end

