-- ==== Sys2Proof/Laws/Bits.lean ====
section
/-! SUPPORT. The bits of the field helpers, and what the byte layouts of words, raw operands and frames give
back (R38, R59, R102). -/

namespace Sys2Proof

@[simp] theorem getLsbD_bitsAt (w lo n i : Nat) (v : BitVec n) :
    (bitsAt w lo v).getLsbD i = (decide (i < w) && v.getLsbD (lo + i)) := by
  simp [bitsAt, BitVec.getLsbD_extractLsb']

@[simp] theorem getLsbD_fieldTo (n k w i : Nat) (v : BitVec w) :
    (fieldTo n k v).getLsbD i = (decide (i < n) && !decide (i < k) && v.getLsbD (i - k)) := by
  simp only [fieldTo, BitVec.getLsbD_shiftLeft, BitVec.getLsbD_setWidth]
  by_cases h1 : i < n <;> by_cases h2 : i < k <;> simp [h1, h2]
  omega

@[simp] theorem getLsbD_bitTo (n k i : Nat) (b : Bool) :
    (bitTo n k b).getLsbD i = (decide (i < n) && decide (i = k) && b) := by
  cases b
  · simp [bitTo]
  · simp only [bitTo, if_true, BitVec.getLsbD_shiftLeft, BitVec.getLsbD_one, Bool.and_true]
    by_cases h1 : i < n <;> by_cases h2 : i < k <;> by_cases h3 : i = k <;> simp [h1, h2, h3] <;> omega

theorem bitTo_false (n k : Nat) : bitTo n k false = 0#n := rfl

/-- The four bytes of a word assemble to it (R38). -/
theorem assembleBytes_bitsAt (w : FrameWord) :
    assembleBytes (bitsAt 8 24 w) (bitsAt 8 16 w) (bitsAt 8 8 w) (bitsAt 8 0 w) = w := by
  apply BitVec.eq_of_getLsbD_eq
  intro i hi
  simp only [assembleBytes, BitVec.getLsbD_or, getLsbD_fieldTo, getLsbD_bitsAt]
  interval_cases i <;> simp

/-- The bytes of an assembled word are the ones it was assembled from (R102). -/
theorem wordBytes_assembleBytes (b0 b1 b2 b3 : Byte) : wordBytes (assembleBytes b0 b1 b2 b3) = [b0, b1, b2, b3] := by
  simp only [wordBytes, List.cons.injEq, and_true]
  refine ⟨?_, ?_, ?_, ?_⟩ <;>
  · apply BitVec.eq_of_getLsbD_eq
    intro i hi
    simp only [assembleBytes, BitVec.getLsbD_or, getLsbD_fieldTo, getLsbD_bitsAt]
    interval_cases i <;> simp

theorem assembleRaw_bitsAt (r : RawCode) : assembleRaw (bitsAt 8 8 r) (bitsAt 8 0 r) = r := by
  apply BitVec.eq_of_getLsbD_eq
  intro i hi
  simp only [assembleRaw, BitVec.getLsbD_or, getLsbD_fieldTo, getLsbD_bitsAt]
  interval_cases i <;> simp

theorem rawBytes_assembleRaw (hi lo : Byte) : rawBytes (assembleRaw hi lo) = [hi, lo] := by
  simp only [rawBytes, List.cons.injEq, and_true]
  refine ⟨?_, ?_⟩ <;>
  · apply BitVec.eq_of_getLsbD_eq
    intro i hi
    simp only [assembleRaw, BitVec.getLsbD_or, getLsbD_fieldTo, getLsbD_bitsAt]
    interval_cases i <;> simp

/-- The bits of a frame word, field by field (R59). -/
theorem getLsbD_frameWordOf (tSign : Bool) (tMag : BitVec 13) (x f iSign : Bool) (iMag : BitVec 11) (y : Bool)
    (c : BitVec 3) (i : Nat) :
    (frameWordOf tSign tMag x f iSign iMag y c).getLsbD i =
      (decide (i < 32) && (decide (i = 31) && tSign || !decide (i < 18) && tMag.getLsbD (i - 18) ||
        decide (i = 17) && x || decide (i = 16) && f || decide (i = 15) && iSign ||
        !decide (i < 4) && iMag.getLsbD (i - 4) || decide (i = 3) && y || c.getLsbD i)) := by
  simp only [frameWordOf, BitVec.getLsbD_or, getLsbD_fieldTo, getLsbD_bitTo]
  by_cases h : i < 32 <;> simp [h]

/-- The fields of a frame word are the ones it was made of (R59). -/
theorem decodeFrameWord_frameWordOf (tSign : Bool) (tMag : BitVec 13) (x f iSign : Bool) (iMag : BitVec 11)
    (y : Bool) (c : BitVec 3) :
    decodeFrameWord (frameWordOf tSign tMag x f iSign iMag y c) = .frame tSign tMag x f iSign iMag y c := by
  simp only [decodeFrameWord, Instr.frame.injEq]
  refine ⟨?_, ?_, ?_, ?_, ?_, ?_, ?_, ?_⟩
  case refine_2 | refine_6 | refine_8 =>
    apply BitVec.eq_of_getLsbD_eq
    intro i hi
    simp only [getLsbD_bitsAt, getLsbD_frameWordOf]
    interval_cases i <;> simp
  all_goals rw [getLsbD_frameWordOf]; simp

/-- A frame word is made of its fields (R59). -/
theorem frameWordOf_fields (w : FrameWord) :
    frameWordOf (w.getLsbD 31) (bitsAt 13 18 w) (w.getLsbD 17) (w.getLsbD 16) (w.getLsbD 15) (bitsAt 11 4 w)
      (w.getLsbD 3) (bitsAt 3 0 w) = w := by
  apply BitVec.eq_of_getLsbD_eq
  intro i hi
  simp only [getLsbD_frameWordOf, getLsbD_bitsAt]
  interval_cases i <;> simp

end Sys2Proof
end

