-- ==== Sys2Proof/Laws/Decode.lean ====
section
/-! SUPPORT. The steps of decoding, each with its inverse: a byte that carries a narrow field, the line field
(R56), the row stream of loadCustomChars (R58); and which block the bytes read belong to (R58). -/

namespace Sys2Proof

theorem lowField_ok {w : Nat} {why : DecodeError} {b : Byte} {x : BitVec w}
    (h : lowField w why b = .ok x) : b = x.setWidth 8 := by
  unfold lowField at h
  split at h
  · next hlt =>
    simp only [Except.ok.injEq] at h
    subst h
    apply BitVec.eq_of_toNat_eq
    simp only [BitVec.toNat_setWidth]
    rw [Nat.mod_eq_of_lt hlt, Nat.mod_eq_of_lt b.isLt]
  · cases h

theorem lowField_setWidth {w : Nat} (why : DecodeError) (x : BitVec w) (hw : w ≤ 8) :
    lowField w why (x.setWidth 8) = .ok x := by
  unfold lowField
  have hx := x.isLt
  have : (2 : Nat) ^ w ≤ 2 ^ 8 := Nat.pow_le_pow_right (by decide) hw
  have e : (x.setWidth 8).toNat = x.toNat := by simp; omega
  rw [if_pos (by omega)]
  congr 1
  apply BitVec.eq_of_toNat_eq
  simp only [BitVec.toNat_setWidth]
  rw [Nat.mod_eq_of_lt (show x.toNat < 2 ^ 8 by omega), Nat.mod_eq_of_lt hx]

@[simp] theorem Line.ofLn_ln (line : Line) : Line.ofLn line.ln = line := by cases line <;> rfl

@[simp] theorem Line.ln_ofLn (ln : BitVec 2) : (Line.ofLn ln).ln = ln := by revert ln; decide

theorem cutGlyphs_flatten : ∀ (glyphs : List (List Byte)), (∀ g ∈ glyphs, g.length = 8) →
    cutGlyphs glyphs.length glyphs.flatten = .ok glyphs
  | [], _ => rfl
  | [g], _ => by simp [cutGlyphs]
  | g :: g' :: gs, h => by
    have ih := cutGlyphs_flatten (g' :: gs) (fun x hx => h x (by simp [hx]))
    have hg : g.length = 8 := h g (by simp)
    simp only [List.length_cons] at ih ⊢
    rw [cutGlyphs]
    simp only [List.flatten_cons]
    rw [List.drop_append_of_le_length (by omega), List.take_append_of_le_length (by omega)]
    rw [List.drop_of_length_le (by omega), List.take_of_length_le (by omega), List.nil_append]
    simp only [List.flatten_cons] at ih
    rw [ih]; rfl

theorem cutGlyphs_ok : ∀ (g : Nat) (rows : List Byte) (glyphs : List (List Byte)),
    cutGlyphs g rows = .ok glyphs → glyphs.length = g ∧ glyphs.flatten = rows
  | 0, [], _, h => by cases h; simp
  | 0, _ :: _, _, h => by cases h
  | 1, _, _, h => by cases h; simp
  | g + 2, rows, _, h => by
    rw [cutGlyphs] at h
    cases hc : cutGlyphs (g + 1) (rows.drop 8) with
    | error e => rw [hc] at h; cases h
    | ok l =>
      rw [hc] at h; cases h
      obtain ⟨h1, h2⟩ := cutGlyphs_ok _ _ _ hc
      simp [h1, h2]

/-- A 4-bit op reads to an instruction of the block its top bit names, whatever stands beside it (R58). -/
theorem decodeOp_block (op : BitVec 4) (beside : List Byte) (i : Instr) (h : decodeOp op beside = .ok i) :
    i.block = if op.getLsbD 3 then .tfd else .dpe := by
  unfold decodeOp at h
  split at h
  case h_17 => cases h
  all_goals
    rename_i hop
    rw [show op.getLsbD 3 = op.toNat.testBit 3 from rfl, hop]
    try simp only [bind, Except.bind, pure, Except.pure] at h
    repeat' split at h
    all_goals first | (cases h; rfl) | cases h

/-- Bytes decode to an instruction of the block their format and op name (R58). -/
theorem decodeRow_block (f : Format) (bytes : List Byte) (i : Instr) (h : decodeRow f bytes = .ok i) :
    i.block = blockOf f bytes := by
  have ofCommand : ∀ v, decodeCommand v = .ok i → i.block = .dpe := by
    intro v h
    unfold decodeCommand at h
    repeat' split at h
    all_goals first | (cases h; rfl) | cases h
  have ofRaw : ∀ b, decodeRawBacklight b = .ok i → i.block = .dpe := by
    intro b h
    unfold decodeRawBacklight at h
    split at h <;> cases h; rfl
  unfold decodeRow at h
  split at h
  case h_1 =>
    unfold decodeOpw at h
    split at h
    · cases h
    · simp only [bind, Except.bind] at h
      split at h
      · cases h
      · next b beside _ op ho =>
        rw [decodeOp_block op beside i h, lowField_ok ho]
        simp [blockOf]
  case h_2 => exact ofCommand _ h
  case h_5 => exact ofRaw _ h
  all_goals cases h <;> rfl

end Sys2Proof
end

