-- ==== Sys2Proof/Laws/Frame.lean ====
section
/-! SUPPORT. The fields of a frame word as numbers (R60), the width of a raw code (D17), and the fields of a
frame word made of fields (R59). -/

namespace Sys2Proof.Machine

theorem internalField_eq (w : FrameWord) : internalField w = w.toNat / 2 ^ 4 % 2 ^ 11 := by
  simp only [internalField]
  rw [BitVec.toNat_and, BitVec.toNat_ushiftRight, Nat.shiftRight_eq_div_pow]
  exact Nat.and_two_pow_sub_one_eq_mod _ 11

theorem thermocoupleField_eq (w : FrameWord) : thermocoupleField w = w.toNat / 2 ^ 18 % 2 ^ 13 := by
  simp only [thermocoupleField]
  rw [BitVec.toNat_and, BitVec.toNat_ushiftRight, Nat.shiftRight_eq_div_pow]
  exact Nat.and_two_pow_sub_one_eq_mod _ 13

/-- No raw code is lost in its 16 bits (D17). -/
theorem toInt_rawCode (x : Int) (h1 : -8192 ≤ x) (h2 : x ≤ 8192) : (BitVec.ofInt 16 x).toInt = x := by
  rw [BitVec.toInt_ofInt, Int.bmod_eq_of_le (by omega) (by omega)]

theorem toInt_internalRaw (rule : NegRule) (w : FrameWord) :
    (decodeFrame rule w).internalRaw.toInt = internalRaw rule w := by
  have : w.toNat / 2 ^ 4 % 2 ^ 11 < 2048 := Nat.mod_lt _ (by decide)
  apply toInt_rawCode <;> simp only [internalRaw, signedRaw, internalField_eq] <;> cases rule <;>
    simp only [negN] <;> split <;> omega

theorem toInt_thermocoupleRaw (rule : NegRule) (w : FrameWord) :
    (decodeFrame rule w).thermocoupleRaw.toInt = thermocoupleRaw rule w := by
  have : w.toNat / 2 ^ 18 % 2 ^ 13 < 8192 := Nat.mod_lt _ (by decide)
  apply toInt_rawCode <;> simp only [thermocoupleRaw, signedRaw, thermocoupleField_eq] <;> cases rule <;>
    simp only [negN] <;> split <;> omega

theorem frameWordOf_magnitudes (tSign : Bool) (tMag : BitVec 13) (x f iSign : Bool) (iMag : BitVec 11) (y : Bool)
    (c : BitVec 3) :
    internalField (frameWordOf tSign tMag x f iSign iMag y c) = iMag.toNat ∧
      thermocoupleField (frameWordOf tSign tMag x f iSign iMag y c) = tMag.toNat := by
  have h := decodeFrameWord_frameWordOf tSign tMag x f iSign iMag y c
  simp only [decodeFrameWord, Instr.frame.injEq, bitsAt] at h
  obtain ⟨_, h1, _, _, _, h2, _⟩ := h
  constructor
  · rw [internalField_eq, ← h2, BitVec.extractLsb'_toNat, Nat.shiftRight_eq_div_pow, h2]
  · rw [thermocoupleField_eq, ← h1, BitVec.extractLsb'_toNat, Nat.shiftRight_eq_div_pow, h1]

end Sys2Proof.Machine
end

