-- ==== Sys2Proof/Laws/State.lean ====
section
/-! SUPPORT. One lemma per field for each named update of State, true by rfl: what the update writes and
what it leaves. Later proofs use these and never unfold an update. -/

namespace Sys2Proof.Machine

section respondDpe
variable (s : State) (c : Nat) (r : Result)
@[simp] theorem State.respondDpe_cfg : (s.respondDpe c r).cfg = s.cfg := rfl
@[simp] theorem State.respondDpe_backlightOn : (s.respondDpe c r).backlightOn = s.backlightOn := rfl
@[simp] theorem State.respondDpe_busy : (s.respondDpe c r).busy = s.busy := rfl
@[simp] theorem State.respondDpe_initDone : (s.respondDpe c r).initDone = s.initDone := rfl
@[simp] theorem State.respondDpe_terrSeen : (s.respondDpe c r).terrSeen = s.terrSeen := rfl
@[simp] theorem State.respondDpe_inProgress : (s.respondDpe c r).inProgress = s.inProgress := rfl
@[simp] theorem State.respondDpe_requests : (s.respondDpe c r).requests = s.requests := rfl
@[simp] theorem State.respondDpe_caller : (s.respondDpe c r).caller = s.caller := rfl
@[simp] theorem State.respondDpe_schedule : (s.respondDpe c r).schedule = s.schedule := rfl
@[simp] theorem State.respondDpe_freeCount : (s.respondDpe c r).freeCount = s.freeCount := rfl
@[simp] theorem State.respondDpe_resetAsserted : (s.respondDpe c r).resetAsserted = s.resetAsserted := rfl
@[simp] theorem State.respondDpe_bus : (s.respondDpe c r).bus = s.bus := rfl
@[simp] theorem State.respondDpe_transferAnswers : (s.respondDpe c r).transferAnswers = s.transferAnswers := rfl
@[simp] theorem State.respondDpe_transferAfter : (s.respondDpe c r).transferAfter = s.transferAfter := rfl
@[simp] theorem State.respondDpe_dpeTrace : (s.respondDpe c r).dpeTrace = s.dpeTrace := rfl
@[simp] theorem State.respondDpe_tfdTrace : (s.respondDpe c r).tfdTrace = s.tfdTrace := rfl
@[simp] theorem State.respondDpe_dpeResponses : (s.respondDpe c r).dpeResponses = s.dpeResponses ++ [⟨c, r⟩] := rfl
@[simp] theorem State.respondDpe_tfdResponses : (s.respondDpe c r).tfdResponses = s.tfdResponses := rfl
end respondDpe

section respondTfd
variable (s : State) (c : Nat) (r : Result)
@[simp] theorem State.respondTfd_cfg : (s.respondTfd c r).cfg = s.cfg := rfl
@[simp] theorem State.respondTfd_backlightOn : (s.respondTfd c r).backlightOn = s.backlightOn := rfl
@[simp] theorem State.respondTfd_busy : (s.respondTfd c r).busy = s.busy := rfl
@[simp] theorem State.respondTfd_initDone : (s.respondTfd c r).initDone = s.initDone := rfl
@[simp] theorem State.respondTfd_terrSeen : (s.respondTfd c r).terrSeen = s.terrSeen := rfl
@[simp] theorem State.respondTfd_inProgress : (s.respondTfd c r).inProgress = s.inProgress := rfl
@[simp] theorem State.respondTfd_requests : (s.respondTfd c r).requests = s.requests := rfl
@[simp] theorem State.respondTfd_caller : (s.respondTfd c r).caller = s.caller := rfl
@[simp] theorem State.respondTfd_schedule : (s.respondTfd c r).schedule = s.schedule := rfl
@[simp] theorem State.respondTfd_freeCount : (s.respondTfd c r).freeCount = s.freeCount := rfl
@[simp] theorem State.respondTfd_resetAsserted : (s.respondTfd c r).resetAsserted = s.resetAsserted := rfl
@[simp] theorem State.respondTfd_bus : (s.respondTfd c r).bus = s.bus := rfl
@[simp] theorem State.respondTfd_transferAnswers : (s.respondTfd c r).transferAnswers = s.transferAnswers := rfl
@[simp] theorem State.respondTfd_transferAfter : (s.respondTfd c r).transferAfter = s.transferAfter := rfl
@[simp] theorem State.respondTfd_dpeTrace : (s.respondTfd c r).dpeTrace = s.dpeTrace := rfl
@[simp] theorem State.respondTfd_tfdTrace : (s.respondTfd c r).tfdTrace = s.tfdTrace := rfl
@[simp] theorem State.respondTfd_dpeResponses : (s.respondTfd c r).dpeResponses = s.dpeResponses := rfl
@[simp] theorem State.respondTfd_tfdResponses : (s.respondTfd c r).tfdResponses = s.tfdResponses ++ [⟨c, r⟩] := rfl
end respondTfd

section hold
variable (s : State) (i : Instr)
@[simp] theorem State.hold_cfg : (s.hold i).cfg = s.cfg := rfl
@[simp] theorem State.hold_backlightOn : (s.hold i).backlightOn = s.backlightOn := rfl
@[simp] theorem State.hold_busy : (s.hold i).busy = s.busy := rfl
@[simp] theorem State.hold_initDone : (s.hold i).initDone = s.initDone := rfl
@[simp] theorem State.hold_terrSeen : (s.hold i).terrSeen = s.terrSeen := rfl
@[simp] theorem State.hold_inProgress : (s.hold i).inProgress = s.inProgress := rfl
@[simp] theorem State.hold_requests : (s.hold i).requests = s.requests ++ [⟨s.caller, .call i⟩] := rfl
@[simp] theorem State.hold_caller : (s.hold i).caller = s.caller := rfl
@[simp] theorem State.hold_schedule : (s.hold i).schedule = s.schedule := rfl
@[simp] theorem State.hold_freeCount : (s.hold i).freeCount = s.freeCount := rfl
@[simp] theorem State.hold_resetAsserted : (s.hold i).resetAsserted = s.resetAsserted := rfl
@[simp] theorem State.hold_bus : (s.hold i).bus = s.bus := rfl
@[simp] theorem State.hold_transferAnswers : (s.hold i).transferAnswers = s.transferAnswers := rfl
@[simp] theorem State.hold_transferAfter : (s.hold i).transferAfter = s.transferAfter := rfl
@[simp] theorem State.hold_dpeTrace : (s.hold i).dpeTrace = s.dpeTrace := rfl
@[simp] theorem State.hold_tfdTrace : (s.hold i).tfdTrace = s.tfdTrace := rfl
@[simp] theorem State.hold_dpeResponses : (s.hold i).dpeResponses = s.dpeResponses := rfl
@[simp] theorem State.hold_tfdResponses : (s.hold i).tfdResponses = s.tfdResponses := rfl
end hold

section record
variable (s : State) (r : Run)
@[simp] theorem State.record_cfg : (s.record r).cfg = s.cfg := rfl
@[simp] theorem State.record_backlightOn : (s.record r).backlightOn = s.backlightOn := rfl
@[simp] theorem State.record_busy : (s.record r).busy = s.busy := rfl
@[simp] theorem State.record_initDone : (s.record r).initDone = s.initDone := rfl
@[simp] theorem State.record_terrSeen : (s.record r).terrSeen = (s.terrSeen || r.failed) := rfl
@[simp] theorem State.record_inProgress : (s.record r).inProgress = s.inProgress := rfl
@[simp] theorem State.record_requests : (s.record r).requests = s.requests := rfl
@[simp] theorem State.record_caller : (s.record r).caller = s.caller := rfl
@[simp] theorem State.record_schedule : (s.record r).schedule = s.schedule := rfl
@[simp] theorem State.record_freeCount : (s.record r).freeCount = s.freeCount := rfl
@[simp] theorem State.record_resetAsserted : (s.record r).resetAsserted = s.resetAsserted := rfl
@[simp] theorem State.record_bus : (s.record r).bus = r.port := rfl
@[simp] theorem State.record_transferAnswers : (s.record r).transferAnswers = s.transferAnswers := rfl
@[simp] theorem State.record_transferAfter : (s.record r).transferAfter = s.transferAfter := rfl
@[simp] theorem State.record_dpeTrace : (s.record r).dpeTrace = s.dpeTrace ++ r.events := rfl
@[simp] theorem State.record_tfdTrace : (s.record r).tfdTrace = s.tfdTrace := rfl
@[simp] theorem State.record_dpeResponses : (s.record r).dpeResponses = s.dpeResponses := rfl
@[simp] theorem State.record_tfdResponses : (s.record r).tfdResponses = s.tfdResponses := rfl
end record

section recordTfd
variable (s : State) (e : TfdEvent)
@[simp] theorem State.recordTfd_cfg : (s.recordTfd e).cfg = s.cfg := rfl
@[simp] theorem State.recordTfd_backlightOn : (s.recordTfd e).backlightOn = s.backlightOn := rfl
@[simp] theorem State.recordTfd_busy : (s.recordTfd e).busy = s.busy := rfl
@[simp] theorem State.recordTfd_initDone : (s.recordTfd e).initDone = s.initDone := rfl
@[simp] theorem State.recordTfd_terrSeen : (s.recordTfd e).terrSeen = s.terrSeen := rfl
@[simp] theorem State.recordTfd_inProgress : (s.recordTfd e).inProgress = s.inProgress := rfl
@[simp] theorem State.recordTfd_requests : (s.recordTfd e).requests = s.requests := rfl
@[simp] theorem State.recordTfd_caller : (s.recordTfd e).caller = s.caller := rfl
@[simp] theorem State.recordTfd_schedule : (s.recordTfd e).schedule = s.schedule := rfl
@[simp] theorem State.recordTfd_freeCount : (s.recordTfd e).freeCount = s.freeCount := rfl
@[simp] theorem State.recordTfd_resetAsserted : (s.recordTfd e).resetAsserted = s.resetAsserted := rfl
@[simp] theorem State.recordTfd_bus : (s.recordTfd e).bus = s.bus := rfl
@[simp] theorem State.recordTfd_transferAnswers : (s.recordTfd e).transferAnswers = s.transferAnswers := rfl
@[simp] theorem State.recordTfd_transferAfter : (s.recordTfd e).transferAfter = s.transferAfter := rfl
@[simp] theorem State.recordTfd_dpeTrace : (s.recordTfd e).dpeTrace = s.dpeTrace := rfl
@[simp] theorem State.recordTfd_tfdTrace : (s.recordTfd e).tfdTrace = s.tfdTrace ++ [e] := rfl
@[simp] theorem State.recordTfd_dpeResponses : (s.recordTfd e).dpeResponses = s.dpeResponses := rfl
@[simp] theorem State.recordTfd_tfdResponses : (s.recordTfd e).tfdResponses = s.tfdResponses := rfl
end recordTfd

section takeTransfer
variable (s : State)
@[simp] theorem State.takeTransfer_cfg : s.takeTransfer.cfg = s.cfg := rfl
@[simp] theorem State.takeTransfer_backlightOn : s.takeTransfer.backlightOn = s.backlightOn := rfl
@[simp] theorem State.takeTransfer_busy : s.takeTransfer.busy = s.busy := rfl
@[simp] theorem State.takeTransfer_initDone : s.takeTransfer.initDone = s.initDone := rfl
@[simp] theorem State.takeTransfer_terrSeen : s.takeTransfer.terrSeen = s.terrSeen := rfl
@[simp] theorem State.takeTransfer_inProgress : s.takeTransfer.inProgress = s.inProgress := rfl
@[simp] theorem State.takeTransfer_requests : s.takeTransfer.requests = s.requests := rfl
@[simp] theorem State.takeTransfer_caller : s.takeTransfer.caller = s.caller := rfl
@[simp] theorem State.takeTransfer_schedule : s.takeTransfer.schedule = s.schedule := rfl
@[simp] theorem State.takeTransfer_freeCount : s.takeTransfer.freeCount = s.freeCount := rfl
@[simp] theorem State.takeTransfer_resetAsserted : s.takeTransfer.resetAsserted = s.resetAsserted := rfl
@[simp] theorem State.takeTransfer_bus : s.takeTransfer.bus = s.bus := rfl
@[simp] theorem State.takeTransfer_transferAnswers : s.takeTransfer.transferAnswers = s.transferAnswers.tail := rfl
@[simp] theorem State.takeTransfer_transferAfter : s.takeTransfer.transferAfter = s.transferAfter := rfl
@[simp] theorem State.takeTransfer_dpeTrace : s.takeTransfer.dpeTrace = s.dpeTrace := rfl
@[simp] theorem State.takeTransfer_tfdTrace : s.takeTransfer.tfdTrace = s.tfdTrace := rfl
@[simp] theorem State.takeTransfer_dpeResponses : s.takeTransfer.dpeResponses = s.dpeResponses := rfl
@[simp] theorem State.takeTransfer_tfdResponses : s.takeTransfer.tfdResponses = s.tfdResponses := rfl
end takeTransfer

section accept
variable (s : State) (body : List Action) (e : Ending)
@[simp] theorem State.accept_cfg : (s.accept body e).cfg = s.cfg := rfl
@[simp] theorem State.accept_backlightOn : (s.accept body e).backlightOn = s.backlightOn := rfl
@[simp] theorem State.accept_busy : (s.accept body e).busy = true := rfl
@[simp] theorem State.accept_initDone : (s.accept body e).initDone = s.initDone := rfl
@[simp] theorem State.accept_terrSeen : (s.accept body e).terrSeen = s.terrSeen := rfl
@[simp] theorem State.accept_inProgress : (s.accept body e).inProgress = some ⟨body, false, e, s.caller⟩ := rfl
@[simp] theorem State.accept_requests : (s.accept body e).requests = s.requests := rfl
@[simp] theorem State.accept_caller : (s.accept body e).caller = s.caller := rfl
@[simp] theorem State.accept_schedule : (s.accept body e).schedule = s.schedule := rfl
@[simp] theorem State.accept_freeCount : (s.accept body e).freeCount = s.freeCount := rfl
@[simp] theorem State.accept_resetAsserted : (s.accept body e).resetAsserted = s.resetAsserted := rfl
@[simp] theorem State.accept_bus : (s.accept body e).bus = s.bus := rfl
@[simp] theorem State.accept_transferAnswers : (s.accept body e).transferAnswers = s.transferAnswers := rfl
@[simp] theorem State.accept_transferAfter : (s.accept body e).transferAfter = s.transferAfter := rfl
@[simp] theorem State.accept_dpeTrace : (s.accept body e).dpeTrace = s.dpeTrace := rfl
@[simp] theorem State.accept_tfdTrace : (s.accept body e).tfdTrace = s.tfdTrace := rfl
@[simp] theorem State.accept_dpeResponses : (s.accept body e).dpeResponses = s.dpeResponses := rfl
@[simp] theorem State.accept_tfdResponses : (s.accept body e).tfdResponses = s.tfdResponses := rfl
end accept

section enqueue
variable (s : State) (as : List Action)
@[simp] theorem State.enqueue_cfg : (s.enqueue as).cfg = s.cfg := rfl
@[simp] theorem State.enqueue_backlightOn : (s.enqueue as).backlightOn = s.backlightOn := rfl
@[simp] theorem State.enqueue_busy : (s.enqueue as).busy = s.busy := rfl
@[simp] theorem State.enqueue_initDone : (s.enqueue as).initDone = s.initDone := rfl
@[simp] theorem State.enqueue_terrSeen : (s.enqueue as).terrSeen = s.terrSeen := rfl
@[simp] theorem State.enqueue_inProgress : (s.enqueue as).inProgress = some (match s.inProgress with | some p => { p with todo := p.todo ++ as } | none => ⟨as, false, .primitive, s.caller⟩) := rfl
@[simp] theorem State.enqueue_requests : (s.enqueue as).requests = s.requests := rfl
@[simp] theorem State.enqueue_caller : (s.enqueue as).caller = s.caller := rfl
@[simp] theorem State.enqueue_schedule : (s.enqueue as).schedule = s.schedule := rfl
@[simp] theorem State.enqueue_freeCount : (s.enqueue as).freeCount = s.freeCount := rfl
@[simp] theorem State.enqueue_resetAsserted : (s.enqueue as).resetAsserted = s.resetAsserted := rfl
@[simp] theorem State.enqueue_bus : (s.enqueue as).bus = s.bus := rfl
@[simp] theorem State.enqueue_transferAnswers : (s.enqueue as).transferAnswers = s.transferAnswers := rfl
@[simp] theorem State.enqueue_transferAfter : (s.enqueue as).transferAfter = s.transferAfter := rfl
@[simp] theorem State.enqueue_dpeTrace : (s.enqueue as).dpeTrace = s.dpeTrace := rfl
@[simp] theorem State.enqueue_tfdTrace : (s.enqueue as).tfdTrace = s.tfdTrace := rfl
@[simp] theorem State.enqueue_dpeResponses : (s.enqueue as).dpeResponses = s.dpeResponses := rfl
@[simp] theorem State.enqueue_tfdResponses : (s.enqueue as).tfdResponses = s.tfdResponses := rfl
end enqueue

section endOperation
variable (s : State) (c : Nat) (failed : Bool)
@[simp] theorem State.endOperation_cfg : (s.endOperation c failed).cfg = s.cfg := rfl
@[simp] theorem State.endOperation_backlightOn : (s.endOperation c failed).backlightOn = s.backlightOn := rfl
@[simp] theorem State.endOperation_busy : (s.endOperation c failed).busy = false := rfl
@[simp] theorem State.endOperation_initDone : (s.endOperation c failed).initDone = s.initDone := rfl
@[simp] theorem State.endOperation_terrSeen : (s.endOperation c failed).terrSeen = s.terrSeen := rfl
@[simp] theorem State.endOperation_inProgress : (s.endOperation c failed).inProgress = none := rfl
@[simp] theorem State.endOperation_requests : (s.endOperation c failed).requests = s.requests := rfl
@[simp] theorem State.endOperation_caller : (s.endOperation c failed).caller = s.caller := rfl
@[simp] theorem State.endOperation_schedule : (s.endOperation c failed).schedule = s.schedule := rfl
@[simp] theorem State.endOperation_freeCount : (s.endOperation c failed).freeCount = s.freeCount := rfl
@[simp] theorem State.endOperation_resetAsserted : (s.endOperation c failed).resetAsserted = s.resetAsserted := rfl
@[simp] theorem State.endOperation_bus : (s.endOperation c failed).bus = s.bus := rfl
@[simp] theorem State.endOperation_transferAnswers : (s.endOperation c failed).transferAnswers = s.transferAnswers := rfl
@[simp] theorem State.endOperation_transferAfter : (s.endOperation c failed).transferAfter = s.transferAfter := rfl
@[simp] theorem State.endOperation_dpeTrace : (s.endOperation c failed).dpeTrace = s.dpeTrace := rfl
@[simp] theorem State.endOperation_tfdTrace : (s.endOperation c failed).tfdTrace = s.tfdTrace := rfl
@[simp] theorem State.endOperation_dpeResponses : (s.endOperation c failed).dpeResponses = s.dpeResponses ++ [⟨c, if failed then .transportError else .ok⟩] := rfl
@[simp] theorem State.endOperation_tfdResponses : (s.endOperation c failed).tfdResponses = s.tfdResponses := rfl
end endOperation

section chosen
variable (s : State) (ks : List Nat) (n : Nat)
@[simp] theorem State.chosen_cfg : (s.chosen ks n).cfg = s.cfg := rfl
@[simp] theorem State.chosen_backlightOn : (s.chosen ks n).backlightOn = s.backlightOn := rfl
@[simp] theorem State.chosen_busy : (s.chosen ks n).busy = s.busy := rfl
@[simp] theorem State.chosen_initDone : (s.chosen ks n).initDone = s.initDone := rfl
@[simp] theorem State.chosen_terrSeen : (s.chosen ks n).terrSeen = s.terrSeen := rfl
@[simp] theorem State.chosen_inProgress : (s.chosen ks n).inProgress = s.inProgress := rfl
@[simp] theorem State.chosen_requests : (s.chosen ks n).requests = s.requests := rfl
@[simp] theorem State.chosen_caller : (s.chosen ks n).caller = s.caller := rfl
@[simp] theorem State.chosen_schedule : (s.chosen ks n).schedule = ks := rfl
@[simp] theorem State.chosen_freeCount : (s.chosen ks n).freeCount = n := rfl
@[simp] theorem State.chosen_resetAsserted : (s.chosen ks n).resetAsserted = s.resetAsserted := rfl
@[simp] theorem State.chosen_bus : (s.chosen ks n).bus = s.bus := rfl
@[simp] theorem State.chosen_transferAnswers : (s.chosen ks n).transferAnswers = s.transferAnswers := rfl
@[simp] theorem State.chosen_transferAfter : (s.chosen ks n).transferAfter = s.transferAfter := rfl
@[simp] theorem State.chosen_dpeTrace : (s.chosen ks n).dpeTrace = s.dpeTrace := rfl
@[simp] theorem State.chosen_tfdTrace : (s.chosen ks n).tfdTrace = s.tfdTrace := rfl
@[simp] theorem State.chosen_dpeResponses : (s.chosen ks n).dpeResponses = s.dpeResponses := rfl
@[simp] theorem State.chosen_tfdResponses : (s.chosen ks n).tfdResponses = s.tfdResponses := rfl
end chosen

section serve
variable (s : State) (rest : List Request) (c : Nat)
@[simp] theorem State.serve_cfg : (s.serve rest c).cfg = s.cfg := rfl
@[simp] theorem State.serve_backlightOn : (s.serve rest c).backlightOn = s.backlightOn := rfl
@[simp] theorem State.serve_busy : (s.serve rest c).busy = s.busy := rfl
@[simp] theorem State.serve_initDone : (s.serve rest c).initDone = s.initDone := rfl
@[simp] theorem State.serve_terrSeen : (s.serve rest c).terrSeen = s.terrSeen := rfl
@[simp] theorem State.serve_inProgress : (s.serve rest c).inProgress = s.inProgress := rfl
@[simp] theorem State.serve_requests : (s.serve rest c).requests = rest := rfl
@[simp] theorem State.serve_caller : (s.serve rest c).caller = c := rfl
@[simp] theorem State.serve_schedule : (s.serve rest c).schedule = s.schedule := rfl
@[simp] theorem State.serve_freeCount : (s.serve rest c).freeCount = s.freeCount := rfl
@[simp] theorem State.serve_resetAsserted : (s.serve rest c).resetAsserted = s.resetAsserted := rfl
@[simp] theorem State.serve_bus : (s.serve rest c).bus = s.bus := rfl
@[simp] theorem State.serve_transferAnswers : (s.serve rest c).transferAnswers = s.transferAnswers := rfl
@[simp] theorem State.serve_transferAfter : (s.serve rest c).transferAfter = s.transferAfter := rfl
@[simp] theorem State.serve_dpeTrace : (s.serve rest c).dpeTrace = s.dpeTrace := rfl
@[simp] theorem State.serve_tfdTrace : (s.serve rest c).tfdTrace = s.tfdTrace := rfl
@[simp] theorem State.serve_dpeResponses : (s.serve rest c).dpeResponses = s.dpeResponses := rfl
@[simp] theorem State.serve_tfdResponses : (s.serve rest c).tfdResponses = s.tfdResponses := rfl
end serve

section resetDpe
variable (s : State)
@[simp] theorem State.resetDpe_cfg : s.resetDpe.cfg = s.cfg := rfl
@[simp] theorem State.resetDpe_backlightOn : s.resetDpe.backlightOn = s.cfg.blReset := rfl
@[simp] theorem State.resetDpe_busy : s.resetDpe.busy = false := rfl
@[simp] theorem State.resetDpe_initDone : s.resetDpe.initDone = false := rfl
@[simp] theorem State.resetDpe_terrSeen : s.resetDpe.terrSeen = false := rfl
@[simp] theorem State.resetDpe_inProgress : s.resetDpe.inProgress = none := rfl
@[simp] theorem State.resetDpe_requests : s.resetDpe.requests = s.requests.filter fun r => r.payload.block == .tfd := rfl
@[simp] theorem State.resetDpe_caller : s.resetDpe.caller = s.caller := rfl
@[simp] theorem State.resetDpe_schedule : s.resetDpe.schedule = s.schedule := rfl
@[simp] theorem State.resetDpe_freeCount : s.resetDpe.freeCount = s.freeCount := rfl
@[simp] theorem State.resetDpe_resetAsserted : s.resetDpe.resetAsserted = false := rfl
@[simp] theorem State.resetDpe_bus : s.resetDpe.bus = s.bus := rfl
@[simp] theorem State.resetDpe_transferAnswers : s.resetDpe.transferAnswers = s.transferAnswers := rfl
@[simp] theorem State.resetDpe_transferAfter : s.resetDpe.transferAfter = s.transferAfter := rfl
@[simp] theorem State.resetDpe_dpeTrace : s.resetDpe.dpeTrace = [] := rfl
@[simp] theorem State.resetDpe_tfdTrace : s.resetDpe.tfdTrace = s.tfdTrace := rfl
@[simp] theorem State.resetDpe_dpeResponses : s.resetDpe.dpeResponses = s.dpeResponses := rfl
@[simp] theorem State.resetDpe_tfdResponses : s.resetDpe.tfdResponses = s.tfdResponses := rfl
end resetDpe

/-! ## What the end of an operation and a drive never touch -/

section finish
variable (s : State) (p : InProgress) (failed : Bool)
@[simp] theorem State.finish_cfg : (s.finish p failed).cfg = s.cfg := by
  cases h : p.ending <;> simp [State.finish, h]
@[simp] theorem State.finish_requests : (s.finish p failed).requests = s.requests := by
  cases h : p.ending <;> simp [State.finish, h]
@[simp] theorem State.finish_caller : (s.finish p failed).caller = s.caller := by
  cases h : p.ending <;> simp [State.finish, h]
@[simp] theorem State.finish_schedule : (s.finish p failed).schedule = s.schedule := by
  cases h : p.ending <;> simp [State.finish, h]
@[simp] theorem State.finish_freeCount : (s.finish p failed).freeCount = s.freeCount := by
  cases h : p.ending <;> simp [State.finish, h]
@[simp] theorem State.finish_resetAsserted : (s.finish p failed).resetAsserted = s.resetAsserted := by
  cases h : p.ending <;> simp [State.finish, h]
@[simp] theorem State.finish_transferAnswers : (s.finish p failed).transferAnswers = s.transferAnswers := by
  cases h : p.ending <;> simp [State.finish, h]
@[simp] theorem State.finish_transferAfter : (s.finish p failed).transferAfter = s.transferAfter := by
  cases h : p.ending <;> simp [State.finish, h]
@[simp] theorem State.finish_tfdTrace : (s.finish p failed).tfdTrace = s.tfdTrace := by
  cases h : p.ending <;> simp [State.finish, h]
@[simp] theorem State.finish_tfdResponses : (s.finish p failed).tfdResponses = s.tfdResponses := by
  cases h : p.ending <;> simp [State.finish, h]
@[simp] theorem State.finish_bus : (s.finish p failed).bus = s.bus := by
  cases h : p.ending <;> simp [State.finish, h]
@[simp] theorem State.finish_dpeTrace : (s.finish p failed).dpeTrace = s.dpeTrace := by
  cases h : p.ending <;> simp [State.finish, h]
@[simp] theorem State.finish_terrSeen : (s.finish p failed).terrSeen = s.terrSeen := by
  cases h : p.ending <;> simp [State.finish, h]
@[simp] theorem State.finish_inProgress : (s.finish p failed).inProgress = none := by
  cases h : p.ending <;> simp [State.finish, h]
end finish

section drive
variable (s : State)
@[simp] theorem State.drive_cfg : s.drive.cfg = s.cfg := by
  unfold State.drive; split
  · rfl
  · dsimp only; split <;> simp
@[simp] theorem State.drive_requests : s.drive.requests = s.requests := by
  unfold State.drive; split
  · rfl
  · dsimp only; split <;> simp
@[simp] theorem State.drive_caller : s.drive.caller = s.caller := by
  unfold State.drive; split
  · rfl
  · dsimp only; split <;> simp
@[simp] theorem State.drive_schedule : s.drive.schedule = s.schedule := by
  unfold State.drive; split
  · rfl
  · dsimp only; split <;> simp
@[simp] theorem State.drive_freeCount : s.drive.freeCount = s.freeCount := by
  unfold State.drive; split
  · rfl
  · dsimp only; split <;> simp
@[simp] theorem State.drive_resetAsserted : s.drive.resetAsserted = s.resetAsserted := by
  unfold State.drive; split
  · rfl
  · dsimp only; split <;> simp
@[simp] theorem State.drive_transferAnswers : s.drive.transferAnswers = s.transferAnswers := by
  unfold State.drive; split
  · rfl
  · dsimp only; split <;> simp
@[simp] theorem State.drive_transferAfter : s.drive.transferAfter = s.transferAfter := by
  unfold State.drive; split
  · rfl
  · dsimp only; split <;> simp
@[simp] theorem State.drive_tfdTrace : s.drive.tfdTrace = s.tfdTrace := by
  unfold State.drive; split
  · rfl
  · dsimp only; split <;> simp
@[simp] theorem State.drive_tfdResponses : s.drive.tfdResponses = s.tfdResponses := by
  unfold State.drive; split
  · rfl
  · dsimp only; split <;> simp
end drive

end Sys2Proof.Machine
end

