-- ==== Sys2Proof/Laws/Run.lean ====
section
/-! SUPPORT. What issuing a list of actions can do, said once (run_append): a stretch whose writes are answered
and whose waits end becomes its events, and the run goes on behind it. From that, the four ways a list can
go: all of it issued, cut short by a failed write, held at an event that does not complete (R36, R71, R122,
R140, R161). Provers cite these and do not unfold run. -/

namespace Sys2Proof.Machine

section event
variable (b : Byte) (t : Nat) (es fs : List DpeEvent)
@[simp] theorem Action.event_write : (Action.write b).event = .W b := rfl
@[simp] theorem Action.event_wait : (Action.wait t).event = .D t := rfl
@[simp] theorem writeCount_nil : writeCount [] = 0 := rfl
@[simp] theorem writeCount_W : writeCount (.W b :: es) = writeCount es + 1 := by simp [writeCount]
@[simp] theorem writeCount_WF : writeCount (.WF b :: es) = writeCount es + 1 := by simp [writeCount]
@[simp] theorem writeCount_D : writeCount (.D t :: es) = writeCount es := by simp [writeCount]
@[simp] theorem writeCount_append : writeCount (es ++ fs) = writeCount es + writeCount fs := by simp [writeCount]
@[simp] theorem waitCount_nil : waitCount [] = 0 := rfl
@[simp] theorem waitCount_W : waitCount (.W b :: es) = waitCount es := by simp [waitCount]
@[simp] theorem waitCount_WF : waitCount (.WF b :: es) = waitCount es := by simp [waitCount]
@[simp] theorem waitCount_D : waitCount (.D t :: es) = waitCount es + 1 := by simp [waitCount]
@[simp] theorem waitCount_append : waitCount (es ++ fs) = waitCount es + waitCount fs := by simp [waitCount]

/-- Writes that are all answered ok leave a list as it is. -/
theorem withFailures_replicate : ∀ (es : List DpeEvent) (n : Nat),
    withFailures (List.replicate n true) es = es
  | [], n => by cases n <;> rfl
  | .W b :: es, 0 => by simpa [withFailures] using withFailures_replicate es 0
  | .W b :: es, n + 1 => by simpa [List.replicate_succ, withFailures] using withFailures_replicate es n
  | .WF b :: es, n => by
    cases n with
    | zero => simpa [withFailures] using withFailures_replicate es 0
    | succ n => simpa [List.replicate_succ, withFailures] using withFailures_replicate es (n + 1)
  | .D t :: es, n => by
    cases n with
    | zero => simpa [withFailures] using withFailures_replicate es 0
    | succ n => simpa [List.replicate_succ, withFailures] using withFailures_replicate es (n + 1)
end event

/-! ## The port -/

section port
variable (p : BusPort)

theorem BusPort.answer_eq : p.answer = p.answers.getD 0 p.after := by
  unfold BusPort.answer; cases p.answers <;> rfl

theorem BusPort.wait_eq : p.wait = p.waits.getD 0 p.waitAfter := by
  unfold BusPort.wait; cases p.waits <;> rfl

/-- The answer to write k + 1 is the answer to write k once one answer is used up. -/
theorem BusPort.answer_succ (k : Nat) :
    p.answers.getD (k + 1) p.after = p.afterWrite.answers.getD k p.afterWrite.after := by
  unfold BusPort.afterWrite; cases p.answers <;> rfl

theorem BusPort.wait_succ (k : Nat) :
    p.waits.getD (k + 1) p.waitAfter = p.afterWait.waits.getD k p.afterWait.waitAfter := by
  unfold BusPort.afterWait; cases p.waits <;> rfl

@[simp] theorem BusPort.afterWrite_drop (n m : Nat) : p.afterWrite.drop n m = p.drop (n + 1) m := by
  simp [BusPort.afterWrite, BusPort.drop]

@[simp] theorem BusPort.afterWait_drop (n m : Nat) : p.afterWait.drop n m = p.drop n (m + 1) := by
  simp [BusPort.afterWait, BusPort.drop]

@[simp] theorem BusPort.drop_zero : p.drop 0 0 = p := by simp [BusPort.drop]

@[simp] theorem BusPort.drop_afterWrite (n m : Nat) : (p.drop n m).afterWrite = p.drop (n + 1) m := by
  simp [BusPort.afterWrite, BusPort.drop]

@[simp] theorem BusPort.drop_afterWait (n m : Nat) : (p.drop n m).afterWait = p.drop n (m + 1) := by
  simp [BusPort.afterWait, BusPort.drop]

theorem BusPort.answer_drop (n m : Nat) : (p.drop n m).answer = p.answers.getD n p.after := by
  simp [BusPort.answer, BusPort.drop, List.headD_eq_head?_getD, List.head?_drop, List.getD_eq_getElem?_getD]

theorem BusPort.wait_drop (n m : Nat) : (p.drop n m).wait = p.waits.getD m p.waitAfter := by
  simp [BusPort.wait, BusPort.drop, List.headD_eq_head?_getD, List.head?_drop, List.getD_eq_getElem?_getD]
end port

/-! ## Issuing actions -/

section run
variable (policy : TerrPolicy) (p : BusPort) (b : Byte) (t : Nat) (todo : List Action)

theorem run_nil : run policy [] p = ⟨[], p, false, none⟩ := rfl

theorem run_wait_elapsed (h : p.wait = .elapsed) :
    run policy (.wait t :: todo) p = (run policy todo p.afterWait).after (.D t) := by
  simp only [run, h]

theorem run_wait_notYet (h : p.wait = .notYet) :
    run policy (.wait t :: todo) p = ⟨[], p.afterWait, false, some (.wait t :: todo)⟩ := by
  simp only [run, h]

theorem run_write_ok (h : p.answer = .ok) :
    run policy (.write b :: todo) p = (run policy todo p.afterWrite).after (.W b) := by
  simp only [run, h]

theorem run_write_abort (h : p.answer = .transportError) :
    run .abort (.write b :: todo) p = ⟨[.WF b], p.afterWrite, true, none⟩ := by
  simp only [run, h]

theorem run_write_continue (h : p.answer = .transportError) :
    run .continueOn (.write b :: todo) p = ((run .continueOn todo p.afterWrite).after (.WF b)).withFailure := by
  simp only [run, h]

theorem run_write_notYet (h : p.answer = .notYet) :
    run policy (.write b :: todo) p = ⟨[], p.afterWrite, false, some (.write b :: todo)⟩ := by
  simp only [run, h]

/-- A run with events before it, some of whose writes may have failed. -/
def Run.behind (r : Run) (es : List DpeEvent) (failed : Bool) : Run :=
  { r with events := es ++ r.events, failed := failed || r.failed }

variable {policy}

/-- A stretch whose writes are answered (under abort all ok) and whose waits end becomes its events, and the run
goes on behind it with those answers used up. -/
theorem run_append : ∀ (done rest : List Action) (p : BusPort) (oks : List Bool),
    oks.length = writeCount (done.map Action.event) → policy = .continueOn ∨ false ∉ oks →
    (∀ k (h : k < oks.length), p.answers.getD k p.after = if oks[k] then .ok else .transportError) →
    (∀ k < waitCount (done.map Action.event), p.waits.getD k p.waitAfter = .elapsed) →
    run policy (done ++ rest) p =
      (run policy rest (p.drop oks.length (waitCount (done.map Action.event)))).behind
        (withFailures oks (done.map Action.event)) (oks.contains false)
  | [], rest, p, oks, hl, _, _, _ => by
    have : oks = [] := List.eq_nil_of_length_eq_zero (by simpa using hl)
    subst this; simp [Run.behind, withFailures]
  | .wait t :: done, rest, p, oks, hl, hp, ha, hw => by
    rw [List.cons_append, run_wait_elapsed _ _ _ _ (by rw [p.wait_eq]; exact hw 0 (by simp)),
      run_append done rest p.afterWait oks (by simpa using hl) hp ha
        (fun k hk => by rw [← p.wait_succ]; exact hw (k + 1) (by simpa using hk))]
    cases oks <;> simp [Run.after, Run.behind, withFailures]
  | .write b :: done, rest, p, [], hl, _, _, _ => by simp at hl
  | .write b :: done, rest, p, ok :: oks, hl, hp, ha, hw => by
    have ih := run_append done rest p.afterWrite oks (by simpa using hl)
      (hp.imp id fun h hf => h (by simp [hf])) (fun k hk => by
        rw [← p.answer_succ]; exact ha (k + 1) (by simpa using hk))
      (fun k hk => hw k (by simpa using hk))
    have h0 := ha 0 (by simp)
    rw [← p.answer_eq] at h0
    cases ok with
    | true =>
      rw [List.cons_append, run_write_ok _ _ _ _ (by simpa using h0), ih]
      simp [Run.after, Run.behind, withFailures]
    | false =>
      obtain rfl : policy = .continueOn := hp.resolve_right (by simp)
      rw [List.cons_append, run_write_continue _ _ _ (by simpa using h0), ih]
      simp [Run.after, Run.behind, Run.withFailure, withFailures]

/-- Every write answered (under abort ok) and every wait ended: every event is issued (R122). -/
theorem run_issued (oks : List Bool) (hl : oks.length = writeCount (todo.map Action.event))
    (hp : policy = .continueOn ∨ false ∉ oks)
    (ha : ∀ k (h : k < oks.length), p.answers.getD k p.after = if oks[k] then .ok else .transportError)
    (hw : ∀ k < waitCount (todo.map Action.event), p.waits.getD k p.waitAfter = .elapsed) :
    run policy todo p = ⟨withFailures oks (todo.map Action.event),
      p.drop oks.length (waitCount (todo.map Action.event)), oks.contains false, none⟩ := by
  have := run_append todo [] p oks hl hp ha hw
  rw [List.append_nil] at this
  rw [this]; simp [Run.behind, run]

theorem getD_replicate_true (n k : Nat) (h : k < (List.replicate n true).length) :
    (if (List.replicate n true)[k] then BusAnswer.ok else .transportError) = .ok := by simp

/-- The answers all ok as a list of answers. -/
theorem replicate_answers (n : Nat) (hok : ∀ k < n, p.answers.getD k p.after = .ok) :
    ∀ k (h : k < (List.replicate n true).length),
      p.answers.getD k p.after = if (List.replicate n true)[k] then .ok else .transportError := by
  intro k h; rw [getD_replicate_true]; exact hok k (by simpa using h)

/-- Every write answered ok and every wait ended: every action becomes its event, nothing fails, nothing is
left. -/
theorem run_clean (hok : ∀ k < writeCount (todo.map Action.event), p.answers.getD k p.after = .ok)
    (hw : ∀ k < waitCount (todo.map Action.event), p.waits.getD k p.waitAfter = .elapsed) :
    run policy todo p = ⟨todo.map Action.event,
      p.drop (writeCount (todo.map Action.event)) (waitCount (todo.map Action.event)), false, none⟩ := by
  have := run_issued (policy := policy) p todo (List.replicate (writeCount (todo.map Action.event)) true) (by simp)
    (.inr (by simp)) (replicate_answers p _ hok) hw
  simpa [withFailures_replicate] using this

/-- The first write that is not answered ok fails under abort: the list ends there (R122). -/
theorem run_abort (done : List Action) (rest : List Action)
    (hok : ∀ k < writeCount (done.map Action.event), p.answers.getD k p.after = .ok)
    (hw : ∀ k < waitCount (done.map Action.event), p.waits.getD k p.waitAfter = .elapsed)
    (herr : p.answers.getD (writeCount (done.map Action.event)) p.after = .transportError) :
    run .abort (done ++ .write b :: rest) p = ⟨done.map Action.event ++ [.WF b],
      p.drop (writeCount (done.map Action.event) + 1) (waitCount (done.map Action.event)), true, none⟩ := by
  rw [run_append done _ p (List.replicate (writeCount (done.map Action.event)) true) (by simp) (.inr (by simp))
      (replicate_answers p _ hok) hw, run_write_abort _ _ _ (by rw [BusPort.answer_drop]; simpa using herr)]
  simp [Run.behind, withFailures_replicate]

/-- An event that does not complete: what stands before it is issued, it and the rest are left (R140, R161). -/
theorem run_stalled (done : List Action) (a : Action) (rest : List Action) (oks : List Bool)
    (hl : oks.length = writeCount (done.map Action.event)) (hp : policy = .continueOn ∨ false ∉ oks)
    (ha : ∀ k (h : k < oks.length), p.answers.getD k p.after = if oks[k] then .ok else .transportError)
    (hw : ∀ k < waitCount (done.map Action.event), p.waits.getD k p.waitAfter = .elapsed)
    (hs : match a with
      | .write _ => p.answers.getD (writeCount (done.map Action.event)) p.after = BusAnswer.notYet
      | .wait _ => p.waits.getD (waitCount (done.map Action.event)) p.waitAfter = WaitAnswer.notYet) :
    run policy (done ++ a :: rest) p = ⟨withFailures oks (done.map Action.event),
      p.drop (writeCount (done.map Action.event ++ [a.event])) (waitCount (done.map Action.event ++ [a.event])),
      oks.contains false, some (a :: rest)⟩ := by
  rw [run_append done _ p oks hl hp ha hw]
  cases a with
  | write b =>
    rw [run_write_notYet _ _ _ _ (by rw [BusPort.answer_drop, hl]; exact hs)]
    simp [Run.behind, hl]
  | wait t =>
    rw [run_wait_notYet _ _ _ _ (by rw [BusPort.wait_drop]; exact hs)]
    simp [Run.behind, hl]

variable (policy)

/-- Where no write failed, the events produced and the actions left make up the whole list. -/
theorem run_unfailed : ∀ (todo : List Action) (p : BusPort), (run policy todo p).failed = false →
    (run policy todo p).events ++ ((run policy todo p).left.getD []).map Action.event = todo.map Action.event
  | [], _ => by simp [run]
  | .wait t :: todo, p => by
    intro h
    cases ha : p.wait with
    | elapsed =>
      rw [run_wait_elapsed _ _ _ _ ha] at h ⊢
      simpa [Run.after] using run_unfailed todo p.afterWait (by simpa [Run.after] using h)
    | notYet => rw [run_wait_notYet _ _ _ _ ha]; simp
  | .write b :: todo, p => by
    intro h
    cases ha : p.answer with
    | ok =>
      rw [run_write_ok _ _ _ _ ha] at h ⊢
      simpa [Run.after] using run_unfailed todo p.afterWrite (by simpa [Run.after] using h)
    | notYet => rw [run_write_notYet _ _ _ _ ha]; simp
    | transportError =>
      cases policy with
      | abort => rw [run_write_abort _ _ _ ha] at h; simp at h
      | continueOn => rw [run_write_continue _ _ _ ha] at h; simp [Run.withFailure] at h

/-- No byte is written that is not in the list. -/
theorem run_bytes : ∀ (todo : List Action) (p : BusPort) (e : DpeEvent) (b : Byte),
    e ∈ (run policy todo p).events → e.byte? = some b → Action.write b ∈ todo
  | [], _, _, _, h, _ => by simp [run] at h
  | .wait t :: todo, p, e, b, h, he => by
    cases ha : p.wait with
    | elapsed =>
      rw [run_wait_elapsed _ _ _ _ ha] at h
      simp only [Run.after, List.mem_cons] at h
      rcases h with rfl | h
      · simp [DpeEvent.byte?] at he
      · exact List.mem_cons_of_mem _ (run_bytes todo p.afterWait e b h he)
    | notYet => rw [run_wait_notYet _ _ _ _ ha] at h; simp at h
  | .write c :: todo, p, e, b, h, he => by
    cases ha : p.answer with
    | ok =>
      rw [run_write_ok _ _ _ _ ha] at h
      simp only [Run.after, List.mem_cons] at h
      rcases h with rfl | h
      · simp only [DpeEvent.byte?, Option.some.injEq] at he; simp [he]
      · exact List.mem_cons_of_mem _ (run_bytes todo p.afterWrite e b h he)
    | notYet => rw [run_write_notYet _ _ _ _ ha] at h; simp at h
    | transportError =>
      have hsub : e = .WF c ∨ e ∈ (run policy todo p.afterWrite).events := by
        cases policy with
        | abort => rw [run_write_abort _ _ _ ha] at h; simp at h; exact .inl h
        | continueOn =>
          rw [run_write_continue _ _ _ ha] at h
          simpa [Run.after, Run.withFailure] using h
      rcases hsub with rfl | h
      · simp only [DpeEvent.byte?, Option.some.injEq] at he; simp [he]
      · exact List.mem_cons_of_mem _ (run_bytes todo p.afterWrite e b h he)

end run

end Sys2Proof.Machine
end

