-- ==== Sys2Proof/Laws/Framing.lean ====
section
/-! SUPPORT. The bodies of the operations, as lists of actions, are the event lists the claims write out
(R73 to R79, R87 to R96): one lemma per body. -/

namespace Sys2Proof.Machine

section framing
variable (cfg : Config) (on : Bool)

theorem write4Actions_events (n : Nibble) (rs : Bool) :
    (write4Actions cfg on n rs).map Action.event = nibbleEvents cfg on n rs := rfl

theorem sendActions_events (v : Byte) (rs : Bool) :
    (sendActions cfg on v rs).map Action.event = byteEvents cfg on v rs := rfl

theorem sendCmdActions_events (v : Byte) :
    (sendCmdActions cfg on v).map Action.event = commandEvents cfg on v := rfl

theorem dataActions_events (vs : List Byte) :
    (dataActions cfg on vs).map Action.event = dataEvents cfg on vs := by
  induction vs with
  | nil => rfl
  | cons v vs ih =>
    simp only [dataActions, dataEvents, List.flatMap_cons, List.map_append] at ih ⊢
    rw [ih]; rfl

theorem dataEvents_append (vs ws : List Byte) :
    dataEvents cfg on (vs ++ ws) = dataEvents cfg on vs ++ dataEvents cfg on ws := by
  simp [dataEvents]

theorem glyphActions_events (glyphs : List (List Byte)) :
    (glyphs.flatMap (dataActions cfg on)).map Action.event = dataEvents cfg on glyphs.flatten := by
  induction glyphs with
  | nil => rfl
  | cons g gs ih => simp [List.flatMap_cons, dataEvents_append, dataActions_events, ih]

/-- An address of at most 7 bits OR'd into the set-DDRAM-address command (R55). -/
theorem setDdramValue_ofNat (a : Nat) (h : a ≤ 0x7F) :
    setDdramValue cfg (BitVec.ofNat 7 a) = cfg.cmdSetDdram ||| BitVec.ofNat 8 a := by
  unfold setDdramValue fieldTo
  congr 1
  apply BitVec.eq_of_toNat_eq
  simp only [BitVec.shiftLeft_zero, BitVec.toNat_setWidth, BitVec.toNat_ofNat]
  omega

theorem textBody_events (address : Nat) (h : address ≤ 0x7F) (text : List Byte) :
    (textBody cfg on address text).map Action.event =
      commandEvents cfg on (cfg.cmdSetDdram ||| BitVec.ofNat 8 address) ++ dataEvents cfg on text := by
  rw [textBody, setDdramActions, setDdramValue_ofNat cfg address h, List.map_append,
    sendCmdActions_events, dataActions_events]

theorem clearBody_events :
    (clearBody cfg on).map Action.event = commandEvents cfg on cfg.cmdClear ++ commandEvents cfg on cfg.cmdHome := rfl

theorem initBody_events :
    (initBody cfg on).map Action.event =
      [cfg.cmdReset4, cfg.cmdReset4, cfg.cmdReset4, cfg.cmdMode4, cfg.cmdFuncset, cfg.cmdDispctl,
        cfg.cmdClear, cfg.cmdEntry].flatMap (commandEvents cfg on) ++ [.D 200] := rfl

theorem glyphBody_events (glyphs : List (List Byte)) :
    (glyphBody cfg on glyphs).map Action.event =
      commandEvents cfg on cfg.cmdSetCgram ++ dataEvents cfg on glyphs.flatten := by
  rw [glyphBody, List.map_append, glyphActions_events]
  congr 1
  simp [setCgramActions, sendCmdActions_events, setCgramValue, fieldTo]

theorem lineBase_le (line : Line) : lineBase line ≤ 0x54 := by cases line <;> decide

@[simp] theorem writeCount_byteEvents (v : Byte) (rs : Bool) : writeCount (byteEvents cfg on v rs) = 6 := rfl

@[simp] theorem writeCount_commandEvents (v : Byte) : writeCount (commandEvents cfg on v) = 6 := rfl

@[simp] theorem waitCount_byteEvents (v : Byte) (rs : Bool) : waitCount (byteEvents cfg on v rs) = 6 := rfl

@[simp] theorem waitCount_commandEvents (v : Byte) : waitCount (commandEvents cfg on v) = 6 := rfl

@[simp] theorem waitCount_dataEvents (vs : List Byte) : waitCount (dataEvents cfg on vs) = 6 * vs.length := by
  induction vs with
  | nil => rfl
  | cons v vs ih =>
    have : dataEvents cfg on (v :: vs) = byteEvents cfg on v true ++ dataEvents cfg on vs := rfl
    rw [this, waitCount_append, ih, waitCount_byteEvents, List.length_cons]; omega

@[simp] theorem length_byteEvents (v : Byte) (rs : Bool) : (byteEvents cfg on v rs).length = 12 := rfl

@[simp] theorem length_commandEvents (v : Byte) : (commandEvents cfg on v).length = 12 := rfl

theorem waitSum_append (es fs : List DpeEvent) : waitSum (es ++ fs) = waitSum es + waitSum fs := by
  induction es with
  | nil => simp [waitSum]
  | cons e es ih => cases e <;> simp [waitSum, ih]; omega

@[simp] theorem waitSum_byteEvents (v : Byte) (rs : Bool) : waitSum (byteEvents cfg on v rs) = 1400 := by
  simp [byteEvents, nibbleEvents, waitSum]

@[simp] theorem waitSum_commandEvents (v : Byte) : waitSum (commandEvents cfg on v) = 1400 := by
  simp [commandEvents]

theorem length_dataEvents (vs : List Byte) : (dataEvents cfg on vs).length = 12 * vs.length := by
  simp [dataEvents, Nat.mul_comm]

theorem waitSum_dataEvents (vs : List Byte) : waitSum (dataEvents cfg on vs) = 1400 * vs.length := by
  induction vs with
  | nil => simp [dataEvents, waitSum]
  | cons v vs ih =>
    have : dataEvents cfg on (v :: vs) = byteEvents cfg on v true ++ dataEvents cfg on vs := rfl
    rw [this, waitSum_append, ih, waitSum_byteEvents, List.length_cons]; omega

@[simp] theorem writeCount_dataEvents (vs : List Byte) : writeCount (dataEvents cfg on vs) = 6 * vs.length := by
  induction vs with
  | nil => rfl
  | cons v vs ih =>
    have : dataEvents cfg on (v :: vs) = byteEvents cfg on v true ++ dataEvents cfg on vs := rfl
    rw [this, writeCount_append, ih, writeCount_byteEvents, List.length_cons]; omega

end framing

end Sys2Proof.Machine
end

