-- ==== Sys2Proof/Laws/Ops.lean ====
section
/-! SUPPORT. For each shared operation, what it can answer, said once: driving the operation in progress,
the common frame of a DPE operation (R86), a primitive, a TFD transfer (R101), a response. -/

namespace Sys2Proof.Machine

/-- What the end of an operation writes into init_done (R87). -/
def Ending.initDone (e : Ending) (failed done : Bool) : Bool :=
  match e with
  | .init => done || !failed
  | .primitive | .plain | .backlight _ => done

/-- What the end of an operation writes into backlightOn (R95). -/
def Ending.light (e : Ending) (failed light : Bool) : Bool :=
  match e with
  | .backlight on => if failed then light else on
  | .primitive | .plain | .init => light

/-! ## Driving -/

theorem State.drive_idle (s : State) (h : s.inProgress = none) : s.drive = s := by
  simp [State.drive, h]

theorem State.drive_left (s : State) (p : InProgress) (todo : List Action) (hp : s.inProgress = some p)
    (h : (run s.cfg.terrPolicy p.todo s.bus).left = some todo) :
    s.drive = { s.record (run s.cfg.terrPolicy p.todo s.bus) with
      inProgress := some { p with
        todo := todo
        failed := p.failed || (run s.cfg.terrPolicy p.todo s.bus).failed } } := by
  simp only [State.drive, hp, h]

theorem State.drive_ended (s : State) (p : InProgress) (hp : s.inProgress = some p)
    (h : (run s.cfg.terrPolicy p.todo s.bus).left = none) :
    s.drive = (s.record (run s.cfg.terrPolicy p.todo s.bus)).finish p
      (p.failed || (run s.cfg.terrPolicy p.todo s.bus).failed) := by
  simp only [State.drive, hp, h]

/-- The end of an operation of the lock, field by field. -/
theorem State.finish_operation (s : State) (p : InProgress) (failed : Bool) (h : p.ending ≠ .primitive) :
    s.finish p failed = { s with
      busy := false
      inProgress := none
      initDone := p.ending.initDone failed s.initDone
      backlightOn := p.ending.light failed s.backlightOn
      dpeResponses := s.dpeResponses ++ [⟨p.caller, if failed then .transportError else .ok⟩] } := by
  cases he : p.ending <;>
    simp_all [State.finish, State.endOperation, State.respondDpe, Ending.initDone, Ending.light]

theorem State.finish_primitive (s : State) (p : InProgress) (failed : Bool) (h : p.ending = .primitive) :
    s.finish p failed = { s with inProgress := none } := by
  simp [State.finish, h]

/-- A drive writes only what R71, R86, R87 and R95 name; it grows the trace and the responses. -/
theorem State.drive_trace (s : State) : ∃ es rs, s.drive.dpeTrace = s.dpeTrace ++ es ∧
    s.drive.dpeResponses = s.dpeResponses ++ rs := by
  cases hp : s.inProgress with
  | none => exact ⟨[], [], by simp [s.drive_idle hp], by simp [s.drive_idle hp]⟩
  | some p =>
    cases hl : (run s.cfg.terrPolicy p.todo s.bus).left with
    | some todo => rw [s.drive_left p todo hp hl]; exact ⟨_, [], rfl, by simp⟩
    | none =>
      rw [s.drive_ended p hp hl]
      by_cases he : p.ending = .primitive
      · rw [State.finish_primitive _ _ _ he]; exact ⟨_, [], rfl, by simp⟩
      · rw [State.finish_operation _ _ _ he]; exact ⟨_, _, rfl, rfl⟩

/-- A drive leaves the parameters, the requests, the schedule, the requester, the inputs and the TFD alone. -/
theorem State.drive_frame (s : State) :
    s.drive.cfg = s.cfg ∧ s.drive.requests = s.requests ∧ s.drive.caller = s.caller ∧
    s.drive.schedule = s.schedule ∧ s.drive.freeCount = s.freeCount ∧ s.drive.resetAsserted = s.resetAsserted ∧
    s.drive.transferAnswers = s.transferAnswers ∧
    s.drive.transferAfter = s.transferAfter ∧ s.drive.tfdTrace = s.tfdTrace ∧
    s.drive.tfdResponses = s.tfdResponses := by
  cases hp : s.inProgress with
  | none => simp [s.drive_idle hp]
  | some p =>
    cases hl : (run s.cfg.terrPolicy p.todo s.bus).left with
    | some todo => rw [s.drive_left p todo hp hl]; simp [State.record]
    | none =>
      rw [s.drive_ended p hp hl]
      by_cases he : p.ending = .primitive
      · rw [State.finish_primitive _ _ _ he]; simp [State.record]
      · rw [State.finish_operation _ _ _ he]; simp [State.record]

/-- What a drive can write into the status bits (R15, R17, R18). -/
theorem State.drive_bits (s : State) (p : InProgress) (hp : s.inProgress = some p) :
    (s.drive.backlightOn = s.backlightOn ∨ ∃ on, p.ending = .backlight on ∧ s.drive.backlightOn = on) ∧
    (s.drive.initDone = s.initDone ∨ p.ending = .init ∧ s.drive.initDone = true) ∧
    (s.drive.terrSeen = s.terrSeen ∨ s.drive.terrSeen = true) := by
  have or_bit : ∀ a b : Bool, (a || b) = a ∨ (a || b) = true := by decide
  cases hl : (run s.cfg.terrPolicy p.todo s.bus).left with
  | some todo => rw [s.drive_left p todo hp hl]; exact ⟨.inl rfl, .inl rfl, or_bit _ _⟩
  | none =>
    rw [s.drive_ended p hp hl]
    by_cases he : p.ending = .primitive
    · rw [State.finish_primitive _ _ _ he]; exact ⟨.inl rfl, .inl rfl, or_bit _ _⟩
    · rw [State.finish_operation _ _ _ he]
      refine ⟨?_, ?_, or_bit _ _⟩
      · cases p.ending with
        | backlight on => simp only [Ending.light]; split <;> simp [State.record]
        | primitive | plain | init => exact .inl rfl
      · cases p.ending with
        | init =>
          simp only [Ending.initDone, true_and]; exact or_bit _ _
        | primitive | plain | backlight => exact .inl rfl

/-- Every byte a drive writes is a byte of the list in progress. -/
theorem State.drive_bytes (s : State) (p : InProgress) (hp : s.inProgress = some p) :
    ∃ es, s.drive.dpeTrace = s.dpeTrace ++ es ∧
      ∀ e ∈ es, ∀ b, e.byte? = some b → Action.write b ∈ p.todo := by
  refine ⟨(run s.cfg.terrPolicy p.todo s.bus).events, ?_,
    fun e he b hb => run_bytes _ _ _ _ _ he hb⟩
  cases hl : (run s.cfg.terrPolicy p.todo s.bus).left with
  | some todo => rw [s.drive_left p todo hp hl]; simp [State.record]
  | none =>
    rw [s.drive_ended p hp hl]
    by_cases he : p.ending = .primitive
    · rw [State.finish_primitive _ _ _ he]; simp [State.record]
    · rw [State.finish_operation _ _ _ he]; simp [State.record]

/-- Driving an operation of the lock ends it with one response, or leaves it in progress (R121, R140). -/
theorem State.drive_result (s : State) (p : InProgress) (hp : s.inProgress = some p) (he : p.ending ≠ .primitive) :
    (∃ r, s.drive.dpeResponses = s.dpeResponses ++ [⟨p.caller, r⟩] ∧ s.drive.busy = false ∧
      s.drive.inProgress = none) ∨
    (s.drive.dpeResponses = s.dpeResponses ∧ s.drive.busy = s.busy ∧
      ∃ todo f, s.drive.inProgress = some { p with todo := todo, failed := f }) := by
  cases hl : (run s.cfg.terrPolicy p.todo s.bus).left with
  | some todo => rw [s.drive_left p todo hp hl]; exact .inr ⟨rfl, rfl, _, _, rfl⟩
  | none =>
    rw [s.drive_ended p hp hl, State.finish_operation _ _ _ he]; exact .inl ⟨_, rfl, rfl, rfl⟩

/-- A split of the events of a list of actions is a split of the actions. -/
theorem split_events (todo : List Action) (done : List DpeEvent) (e : DpeEvent) (rest : List DpeEvent)
    (h : todo.map Action.event = done ++ e :: rest) : ∃ before a after, todo = before ++ a :: after ∧
      before.map Action.event = done ∧ a.event = e ∧ after.map Action.event = rest := by
  obtain ⟨before, tail, rfl, hb, ht⟩ := List.map_eq_append_iff.mp h
  obtain ⟨a, after, rfl, ha, hr⟩ := List.map_eq_cons_iff.mp ht
  exact ⟨before, a, after, rfl, hb, ha, hr⟩

/-- The end of an operation is what the claims call ended. -/
theorem State.finish_ended (s : State) (p : InProgress) (failed : Bool) (h : p.ending ≠ .primitive) :
    s.finish p failed = s.ended p failed := by
  rw [State.finish_operation _ _ _ h]
  cases he : p.ending <;> cases failed <;> simp_all [State.ended, Ending.initDone, Ending.light]

section issued
variable (s : State) (p : InProgress) (hp : s.inProgress = some p)
include hp

/-- Every event left is issued: the operation, or the primitive run on its own, ends. -/
theorem State.drive_issued (oks : List Bool) (hl : oks.length = writeCount (p.todo.map Action.event))
    (hg : s.goesOnAfter oks) (ha : s.answersAre oks (waitCount (p.todo.map Action.event))) :
    s.drive = ({ s.wrote oks.length (waitCount (p.todo.map Action.event))
        (withFailures oks (p.todo.map Action.event)) with
      terrSeen := s.terrSeen || oks.contains false }).finish p (p.failed || oks.contains false) := by
  have hr := run_issued s.bus p.todo oks hl hg ha.1 ha.2
  rw [s.drive_ended p hp (by simp [hr]), hr]; rfl

/-- A write fails under abort: the operation, or the primitive run on its own, ends there (R122). -/
theorem State.drive_aborted (hpol : s.cfg.terrPolicy = .abort) (done : List DpeEvent) (b : Byte)
    (rest : List DpeEvent) (hs : p.todo.map Action.event = done ++ DpeEvent.W b :: rest)
    (hok : s.answersOk (writeCount done) (waitCount done)) (herr : s.busAnswer (writeCount done) = .transportError) :
    s.drive = ({ s.wrote (writeCount done + 1) (waitCount done) (done ++ [DpeEvent.WF b]) with
      terrSeen := true }).finish p true := by
  obtain ⟨before, a, after, ht, rfl, hae, rfl⟩ := split_events _ _ _ _ hs
  obtain rfl : a = .write b := by cases a <;> simp_all [Action.event]
  have hr := run_abort s.bus b before after hok.1 hok.2 herr
  rw [← ht, ← hpol] at hr
  rw [s.drive_ended p hp (by simp [hr]), hr]
  simp [State.record, State.wrote]

/-- An event does not complete: it and the rest are still to come (R140, R161). -/
theorem State.drive_stalled (done : List DpeEvent) (e : DpeEvent) (rest : List DpeEvent) (oks : List Bool)
    (hs : p.todo.map Action.event = done ++ e :: rest) (hl : oks.length = writeCount done)
    (hg : s.goesOnAfter oks) (ha : s.answersAre oks (waitCount done))
    (hst : s.stallsAt e (writeCount done) (waitCount done)) :
    ∃ todo : List Action, todo.map Action.event = e :: rest ∧
      s.drive = { s.wrote (writeCount (done ++ [e])) (waitCount (done ++ [e])) (withFailures oks done) with
        terrSeen := s.terrSeen || oks.contains false
        inProgress := some { p with todo := todo, failed := p.failed || oks.contains false } } := by
  obtain ⟨before, a, after, ht, rfl, rfl, rfl⟩ := split_events _ _ _ _ hs
  have hr := run_stalled (policy := s.cfg.terrPolicy) s.bus before a after oks hl hg ha.1 ha.2
    (by cases a <;> exact hst)
  rw [← ht] at hr
  refine ⟨a :: after, rfl, ?_⟩
  rw [s.drive_left p (a :: after) hp (by simp [hr]), hr]; rfl

end issued

/-! ## The frame of a DPE operation -/

section operation
variable (i : Instr) (valid : Bool) (body : List Action) (e : Ending) (s : State)

theorem State.dpeIdle_iff : s.dpeIdle = true ↔ s.free := by
  simp [State.dpeIdle, State.free]

/-- An operation of the DPE never stops the machine. -/
theorem dpeOperation_next : ∃ t, dpeOperation i valid body e s = .next t := by
  unfold dpeOperation; repeat' split
  all_goals exact ⟨_, rfl⟩

/-- What an operation of the DPE can answer: held, refused, or accepted and driven (R86). -/
theorem dpeOperation_cases (t : State) (h : dpeOperation i valid body e s = .next t) :
    (¬ s.free ∧ t = s.hold i) ∨
    (s.free ∧ valid = false ∧ t = s.respondDpe s.caller .invalidOperand) ∨
    (s.free ∧ valid = true ∧ t = (s.accept body e).drive) := by
  unfold dpeOperation at h
  split at h
  · next hi =>
    cases h
    exact .inl ⟨by rw [← s.dpeIdle_iff]; simpa using hi, rfl⟩
  · next hi =>
    have hf : s.free := s.dpeIdle_iff.mp (by simpa using hi)
    split at h
    · next hv => cases h; exact .inr (.inl ⟨hf, by simpa using hv, rfl⟩)
    · next hv => cases h; exact .inr (.inr ⟨hf, by simpa using hv, rfl⟩)

theorem dpeOperation_held (h : ¬ s.free) : dpeOperation i valid body e s = .next (s.hold i) := by
  have : s.dpeIdle = false := by simpa [← State.dpeIdle_iff] using h
  simp [dpeOperation, this]

theorem dpeOperation_refused (h : s.free) :
    dpeOperation i false body e s = .next (s.respondDpe s.caller .invalidOperand) := by
  simp [dpeOperation, s.dpeIdle_iff.mpr h]

theorem dpeOperation_accepted (h : s.free) :
    dpeOperation i true body e s = .next (s.accept body e).drive := by
  simp [dpeOperation, s.dpeIdle_iff.mpr h]

variable {e} {body}

/-- An accepted operation of which every event is issued, some writes failed under continue or none (R86, R122). -/
theorem dpeOperation_issued (h : s.free) (he : e ≠ .primitive) (oks : List Bool)
    (hl : oks.length = writeCount (body.map Action.event)) (hg : s.goesOnAfter oks)
    (ha : s.answersAre oks (waitCount (body.map Action.event))) :
    dpeOperation i true body e s = .next { s with
      bus := s.bus.drop oks.length (waitCount (body.map Action.event))
      dpeTrace := s.dpeTrace ++ withFailures oks (body.map Action.event)
      terrSeen := s.terrSeen || oks.contains false
      initDone := e.initDone (oks.contains false) s.initDone
      backlightOn := e.light (oks.contains false) s.backlightOn
      dpeResponses := s.dpeResponses ++ [⟨s.caller, if oks.contains false then .transportError else .ok⟩] } := by
  obtain ⟨hb, hi⟩ := h
  rw [dpeOperation_accepted i body e s ⟨hb, hi⟩,
    (s.accept body e).drive_issued ⟨body, false, e, s.caller⟩ rfl oks hl hg ha, State.finish_operation _ _ _ he]
  simp [State.wrote, State.accept, hb, hi]

/-- An accepted operation whose writes are all answered ok and whose waits end. -/
theorem dpeOperation_clean (h : s.free) (he : e ≠ .primitive)
    (hok : s.answersOk (writeCount (body.map Action.event)) (waitCount (body.map Action.event))) :
    dpeOperation i true body e s = .next { s with
      bus := s.bus.drop (writeCount (body.map Action.event)) (waitCount (body.map Action.event))
      dpeTrace := s.dpeTrace ++ body.map Action.event
      initDone := e.initDone false s.initDone
      backlightOn := e.light false s.backlightOn
      dpeResponses := s.dpeResponses ++ [⟨s.caller, .ok⟩] } := by
  have := dpeOperation_issued i s h he (List.replicate (writeCount (body.map Action.event)) true) (by simp)
    (.inr (by simp)) ⟨replicate_answers s.bus _ hok.1, hok.2⟩
  simpa [withFailures_replicate] using this

/-- R122 under abort: the first write not answered ok fails. -/
theorem dpeOperation_aborted (h : s.free) (he : e ≠ .primitive) (hpol : s.cfg.terrPolicy = .abort)
    (done : List DpeEvent) (b : Byte) (rest : List DpeEvent) (hs : body.map Action.event = done ++ .W b :: rest)
    (hok : s.answersOk (writeCount done) (waitCount done)) (herr : s.busAnswer (writeCount done) = .transportError) :
    dpeOperation i true body e s = .next { s with
      bus := s.bus.drop (writeCount done + 1) (waitCount done)
      dpeTrace := s.dpeTrace ++ (done ++ [DpeEvent.WF b])
      terrSeen := true
      dpeResponses := s.dpeResponses ++ [⟨s.caller, .transportError⟩] } := by
  obtain ⟨hb, hi⟩ := h
  rw [dpeOperation_accepted i body e s ⟨hb, hi⟩,
    (s.accept body e).drive_aborted ⟨body, false, e, s.caller⟩ rfl hpol done b rest hs hok herr,
    State.finish_operation _ _ _ he]
  cases e <;> simp [State.wrote, State.accept, hb, hi, Ending.initDone, Ending.light]

/-- R140, R161: an event that does not complete leaves the operation in progress with the lock held and no
response. -/
theorem dpeOperation_stalled (h : s.free) (done : List DpeEvent) (ev : DpeEvent) (rest : List DpeEvent)
    (oks : List Bool) (hs : body.map Action.event = done ++ ev :: rest) (hl : oks.length = writeCount done)
    (hg : s.goesOnAfter oks) (ha : s.answersAre oks (waitCount done))
    (hst : s.stallsAt ev (writeCount done) (waitCount done)) :
    ∃ todo : List Action, todo.map Action.event = ev :: rest ∧
      dpeOperation i true body e s = .next { s with
        busy := true
        inProgress := some ⟨todo, oks.contains false, e, s.caller⟩
        bus := s.bus.drop (writeCount (done ++ [ev])) (waitCount (done ++ [ev]))
        dpeTrace := s.dpeTrace ++ withFailures oks done
        terrSeen := s.terrSeen || oks.contains false } := by
  obtain ⟨todo, ht, hd⟩ := (s.accept body e).drive_stalled ⟨body, false, e, s.caller⟩ rfl done ev rest oks hs hl
    hg ha hst
  refine ⟨todo, ht, ?_⟩
  rw [dpeOperation_accepted i body e s h, hd]
  simp [State.wrote, State.accept]

end operation

/-! ## Primitives -/

section primitive
variable (actions : List Action) (s : State)

theorem State.enqueue_cases : ∃ p, (s.enqueue actions).inProgress = some p ∧
    (∀ q, s.inProgress = some q → p = { q with todo := q.todo ++ actions }) ∧
    (s.inProgress = none → p = ⟨actions, false, .primitive, s.caller⟩) := by
  unfold State.enqueue
  cases s.inProgress with
  | none => exact ⟨_, rfl, by simp, fun _ => rfl⟩
  | some q => exact ⟨_, rfl, by simp, by simp⟩

theorem primitive_next : ∃ t, primitive actions s = .next t := ⟨_, rfl⟩

/-- A primitive on its own of which every event is issued, some writes failed under continue or none. -/
theorem primitive_issued (h : s.inProgress = none) (oks : List Bool)
    (hl : oks.length = writeCount (actions.map Action.event)) (hg : s.goesOnAfter oks)
    (ha : s.answersAre oks (waitCount (actions.map Action.event))) :
    primitive actions s = .next { s.wrote oks.length (waitCount (actions.map Action.event))
        (withFailures oks (actions.map Action.event)) with
      terrSeen := s.terrSeen || oks.contains false } := by
  rw [primitive, (s.enqueue actions).drive_issued ⟨actions, false, .primitive, s.caller⟩ (by simp [h]) oks hl hg ha,
    State.finish_primitive _ _ _ rfl]
  simp [State.wrote, State.enqueue, h]

/-- A primitive on its own whose writes are all answered ok and whose waits end: its events, nothing else. -/
theorem primitive_clean (h : s.inProgress = none)
    (hok : s.answersOk (writeCount (actions.map Action.event)) (waitCount (actions.map Action.event))) :
    primitive actions s = .next (s.wrote (writeCount (actions.map Action.event))
      (waitCount (actions.map Action.event)) (actions.map Action.event)) := by
  have := primitive_issued actions s h (List.replicate (writeCount (actions.map Action.event)) true) (by simp)
    (.inr (by simp)) ⟨replicate_answers s.bus _ hok.1, hok.2⟩
  simpa [withFailures_replicate, State.wrote] using this

/-- A primitive on its own under abort with a failing write. -/
theorem primitive_aborted (h : s.inProgress = none) (hpol : s.cfg.terrPolicy = .abort)
    (done : List DpeEvent) (b : Byte) (rest : List DpeEvent) (hs : actions.map Action.event = done ++ .W b :: rest)
    (hok : s.answersOk (writeCount done) (waitCount done)) (herr : s.busAnswer (writeCount done) = .transportError) :
    primitive actions s = .next { s.wrote (writeCount done + 1) (waitCount done) (done ++ [DpeEvent.WF b]) with
      terrSeen := true } := by
  rw [primitive, (s.enqueue actions).drive_aborted ⟨actions, false, .primitive, s.caller⟩ (by simp [h]) hpol done b
    rest hs hok herr, State.finish_primitive _ _ _ rfl]
  simp [State.wrote, State.enqueue, h]

end primitive

/-! ## Transfers and pure functions of the TFD -/

section transfer
variable (i : Instr) (result : ReadResult → Result) (s : State)

theorem tfdTransfer_next : ∃ t, tfdTransfer i result s = .next t := by
  unfold tfdTransfer; split <;> exact ⟨_, rfl⟩

/-- What a transfer can answer: decoded, failed, or left outstanding (R101, R123, R140). -/
theorem tfdTransfer_cases (t : State) (h : tfdTransfer i result s = .next t) :
    (∃ e r, t = (s.takeTransfer.recordTfd e).respondTfd s.caller r) ∨ t = s.takeTransfer.hold i := by
  unfold tfdTransfer at h
  split at h <;> cases h
  · exact .inl ⟨_, _, rfl⟩
  · exact .inl ⟨_, _, rfl⟩
  · exact .inr rfl

theorem tfdTransfer_frame (b0 b1 b2 b3 : Byte) (h : s.transferAnswer = .frame b0 b1 b2 b3) :
    tfdTransfer i result s = .next ((s.takeTransfer.recordTfd (.X b0 b1 b2 b3)).respondTfd s.caller
      (result (decodeFrame s.cfg.negRule (assembleBytes b0 b1 b2 b3)))) := by
  unfold State.transferAnswer at h; simp only [tfdTransfer, h]

theorem tfdTransfer_error (h : s.transferAnswer = .transportError) :
    tfdTransfer i result s =
      .next ((s.takeTransfer.recordTfd .XF).respondTfd s.caller .transportError) := by
  unfold State.transferAnswer at h; simp only [tfdTransfer, h]

theorem tfdTransfer_notYet (h : s.transferAnswer = .notYet) :
    tfdTransfer i result s = .next (s.takeTransfer.hold i) := by
  unfold State.transferAnswer at h; simp only [tfdTransfer, h]

theorem tfdAnswer_next (r : Result) : tfdAnswer r s = .next (s.respondTfd s.caller r) := rfl

end transfer

end Sys2Proof.Machine
end

