-- ==== Sys2Proof/Laws/Instr.lean ====
section
/-! SUPPORT. The operand checks as propositions (R124), and for the instructions of each shape which shared
operation their meaning is with which events, so that a claim about all of them cites one lemma. -/

namespace Sys2Proof.Machine

/-! ## Operand checks -/

theorem textOk_iff (cfg : Config) (text : List Byte) :
    textOk cfg text = true ↔ ∀ m, cfg.textMax = some m → text.length ≤ m := by
  unfold textOk; cases cfg.textMax <;> simp

theorem addrOk_iff (line : Line) (col : Byte) : addrOk line col = true ↔ lineBase line + col.toNat ≤ 0x7F :=
  decide_eq_true_iff

theorem glyphsOk_iff (glyphs : List (List Byte)) :
    glyphsOk glyphs = true ↔ glyphs.length ≤ 8 ∧ ∀ g ∈ glyphs, g.length = 8 := by
  simp only [glyphsOk, Bool.and_eq_true, decide_eq_true_eq, List.all_eq_true, beq_iff_eq]
  exact Iff.rfl

theorem fieldTo_zero (n w : Nat) (v : BitVec w) : fieldTo n 0 v = v.setWidth n := by simp [fieldTo]

/-! ## Primitives and single bytes -/

/-- The meaning of each instruction with primEvents is a primitive with those events. -/
theorem primEvents_exec (s : State) (i : Instr) (es : List DpeEvent) (h : primEvents s i = some es) :
    ∃ actions : List Action, actions.map Action.event = es ∧ exec i s = primitive actions s := by
  cases i <;> simp only [primEvents, Option.some.injEq] at h <;> first | (cases h; done) | skip
  case setDdram a | setDdramByte a =>
    exact ⟨setDdramActions s.cfg s.backlightOn a, by rw [← h, ← fieldTo_zero]; rfl, rfl⟩
  case setCgram a | setCgramByte a =>
    exact ⟨setCgramActions s.cfg s.backlightOn a, by rw [← h, ← fieldTo_zero]; rfl, rfl⟩
  all_goals subst h; exact ⟨_, rfl, rfl⟩

/-- An instruction with primEvents whose writes are all answered ok. -/
theorem primEvents_clean (s : State) (i : Instr) (es : List DpeEvent) (h : primEvents s i = some es)
    (hi : s.inProgress = none) (hok : s.answersOk (writeCount es) (waitCount es)) :
    exec i s = .next (s.wrote (writeCount es) (waitCount es) es) := by
  obtain ⟨actions, rfl, hx⟩ := primEvents_exec s i es h
  rw [hx, primitive_clean actions s hi hok]

/-! ## Operations of the DPE -/

theorem endingOf_ne_primitive (i : Instr) : endingOf i ≠ .primitive := by cases i <;> simp [endingOf]

/-- The meaning of each instruction with opEvents is an accepted operation with those events. -/
theorem opEvents_exec (s : State) (i : Instr) (es : List DpeEvent) (h : opEvents s i = some es) :
    ∃ body : List Action, body.map Action.event = es ∧ exec i s = dpeOperation i true body (endingOf i) s := by
  cases i <;> simp only [opEvents, Option.some.injEq] at h <;> first | (cases h; done) | skip
  case init => exact ⟨initBody s.cfg s.backlightOn, h, rfl⟩
  case writeChar c => exact ⟨sendDataActions s.cfg s.backlightOn c, by rw [← h]; rfl, rfl⟩
  case displayString text line =>
    split at h
    · next ht =>
      refine ⟨textBody s.cfg s.backlightOn (lineBase line) text, ?_, ?_⟩
      · rw [textBody_events _ _ _ (by have := lineBase_le line; omega)]; simpa using h
      · simp [exec, execDisplayString, ht, endingOf]
    · cases h
  case displayStringAt text line col =>
    split at h
    · next ht =>
      refine ⟨textBody s.cfg s.backlightOn (ddramAddr line col) text, ?_, ?_⟩
      · rw [textBody_events _ _ (ddramAddr line col) ht.1]; simpa [ddramAddr] using h
      · simp [exec, execDisplayStringAt, ht.2, endingOf, (addrOk_iff line col).mpr ht.1]
    · cases h
  case clear => exact ⟨clearBody s.cfg s.backlightOn, h, rfl⟩
  case backlight on => exact ⟨[.write (rawBacklightByte s.cfg on)], h, rfl⟩
  case loadCustomChars glyphs =>
    split at h
    · next hg =>
      refine ⟨glyphBody s.cfg s.backlightOn glyphs, ?_, ?_⟩
      · rw [glyphBody_events]; simpa using h
      · simp [exec, execLoadCustomChars, (glyphsOk_iff glyphs).mpr hg, endingOf]
    · cases h

/-- An accepted operation whose writes are all answered ok. -/
theorem opEvents_clean (s : State) (i : Instr) (es : List DpeEvent) (h : opEvents s i = some es)
    (hf : s.free) (hok : s.answersOk (writeCount es) (waitCount es)) :
    exec i s = .next { (s.wrote (writeCount es) (waitCount es) es).answered .ok with
      initDone := (endingOf i).initDone false s.initDone
      backlightOn := (endingOf i).light false s.backlightOn } := by
  obtain ⟨body, rfl, hx⟩ := opEvents_exec s i es h
  rw [hx, dpeOperation_clean i s hf (endingOf_ne_primitive i) hok]; rfl

theorem length_glyphs (glyphs : List (List Byte)) (h : ∀ g ∈ glyphs, g.length = 8) :
    glyphs.flatten.length = 8 * glyphs.length := by
  induction glyphs with
  | nil => rfl
  | cons g gs ih => simp [ih fun x hx => h x (by simp [hx]), h g (by simp)]; omega

/-! ## Every instruction -/

/-- Every meaning is one of the shared operations. -/
theorem exec_shape (i : Instr) (s : State) :
    (∃ valid body, exec i s = dpeOperation i valid body (endingOf i) s ∧ i.block = .dpe ∧ i.isHostOp = true) ∨
    (∃ actions, exec i s = primitive actions s ∧ i.block = .dpe ∧ i.isHostOp = false) ∨
    (∃ result, exec i s = tfdTransfer i result s ∧ i.block = .tfd ∧ i.isHostOp = true) ∨
    (∃ r, exec i s = tfdAnswer r s ∧ i.block = .tfd) := by
  cases i
  case init | writeChar | displayString | displayStringAt | clear | backlight | loadCustomChars | reserved7 =>
    exact .inl ⟨_, _, rfl, rfl, rfl⟩
  case readFrame | getTemperature => exact .inr (.inr (.inl ⟨_, rfl, rfl, rfl⟩))
  case internalCelsius | thermocoupleCelsius | decode | reservedD | reservedE | reservedF | frame =>
    exact .inr (.inr (.inr ⟨_, rfl, rfl⟩))
  all_goals exact .inr (.inl ⟨_, rfl, rfl, rfl⟩)

/-- No instruction stops the machine (R140). -/
theorem exec_next (i : Instr) (s : State) : ∃ t, exec i s = .next t := by
  rcases exec_shape i s with ⟨_, _, h, _⟩ | ⟨_, h, _⟩ | ⟨_, h, _⟩ | ⟨_, h, _⟩ <;> rw [h]
  · exact dpeOperation_next ..
  · exact primitive_next ..
  · exact tfdTransfer_next ..
  · exact ⟨_, rfl⟩

end Sys2Proof.Machine
end

