-- ==== Sys2Proof/Laws/Masks.lean ====
section
/-! SUPPORT. Four distinct single-bit masks as four bit places (R46), and the bits of the bytes composed with
them (R47, R50). -/

namespace Sys2Proof.Machine

theorem oneBit (m : Byte) (h : [0x01#8, 0x02#8, 0x04#8, 0x08#8].contains m = true) : ∃ k < 4, m = 1#8 <<< k := by
  simp only [List.contains_iff_mem, List.mem_cons, List.mem_nil_iff, or_false] at h
  rcases h with rfl | rfl | rfl | rfl
  · exact ⟨0, by decide, rfl⟩
  · exact ⟨1, by decide, rfl⟩
  · exact ⟨2, by decide, rfl⟩
  · exact ⟨3, by decide, rfl⟩

/-- Four distinct single-bit masks are four distinct places in the low nibble. -/
theorem masksOk_places (cfg : Config) (h : cfg.masksOk = true) :
    ∃ a b c d, a < 4 ∧ b < 4 ∧ c < 4 ∧ d < 4 ∧ a ≠ b ∧ a ≠ c ∧ a ≠ d ∧ b ≠ c ∧ b ≠ d ∧ c ≠ d ∧
      cfg.rsMask = 1#8 <<< a ∧ cfg.rwMask = 1#8 <<< b ∧ cfg.enMask = 1#8 <<< c ∧ cfg.blMask = 1#8 <<< d := by
  simp only [Config.masksOk, List.all_cons, List.all_nil, Bool.and_true, Bool.and_eq_true, decide_eq_true_eq] at h
  obtain ⟨⟨h1, h2, h3, h4⟩, hn⟩ := h
  obtain ⟨a, ha, ea⟩ := oneBit _ h1
  obtain ⟨b, hb, eb⟩ := oneBit _ h2
  obtain ⟨c, hc, ec⟩ := oneBit _ h3
  obtain ⟨d, hd, ed⟩ := oneBit _ h4
  rw [ea, eb, ec, ed] at hn
  simp only [List.nodup_cons, List.mem_cons, List.mem_nil_iff, or_false, not_or] at hn
  refine ⟨a, b, c, d, ha, hb, hc, hd, ?_, ?_, ?_, ?_, ?_, ?_, ea, eb, ec, ed⟩ <;> rintro rfl <;> simp at hn

/-- A single-bit mask picks its bit. -/
theorem and_mask_ne_zero (v : Byte) (k : Nat) (hk : k < 8) : v &&& 1#8 <<< k ≠ 0 ↔ v.getLsbD k = true := by
  constructor
  · intro h
    by_contra hc
    apply h
    apply BitVec.eq_of_getLsbD_eq
    intro i hi
    simp only [BitVec.getLsbD_and, BitVec.getLsbD_shiftLeft, BitVec.getLsbD_one]
    by_cases e : i = k
    · subst e; simp [hc]
    · have : ¬ (i < k) → i - k ≠ 0 := by omega
      by_cases g : i < k <;> simp [g]; simp [this g]
  · intro h hc
    have := congrArg (fun x => x.getLsbD k) hc
    simp [hk] at this
    rw [BitVec.getLsbD_eq_getElem hk] at h
    simp [h] at this

theorem maskIf_place (b : Bool) (k : Nat) : maskIf b (1#8 <<< k) = bitTo 8 k b := by cases b <;> rfl

/-- The bits of a composed byte, for masks at places a, c and d. -/
theorem getLsbD_compose (cfg : Config) (a c d : Nat) (h1 : cfg.rsMask = 1#8 <<< a) (h2 : cfg.enMask = 1#8 <<< c)
    (h3 : cfg.blMask = 1#8 <<< d) (on : Bool) (n : Nibble) (rs en : Bool) (i : Nat) :
    (compose cfg on n rs en).getLsbD i = (decide (i < 8) && (!decide (i < 4) && n.getLsbD (i - 4) ||
      decide (i = d) && on || decide (i = c) && en || decide (i = a) && rs)) := by
  simp only [compose, h1, h2, h3, maskIf_place, BitVec.getLsbD_or, getLsbD_fieldTo, getLsbD_bitTo]
  by_cases h : i < 8 <;> simp [h]

end Sys2Proof.Machine
end

