-- ==== Sys2Proof/Laws/PerInstr.lean ====
section
/-! SUPPORT. Facts about every instruction as syntax, one lemma per constructor. BlockOfWord: the block
that the bytes of an instruction name is the block the opcode table gives the instruction (R58). -/

namespace Sys2Proof.Laws.BlockOfWord

open Sys2Proof.Machine

/-- The encoded form of i names the block of i, and i as a request by name does too. -/
def Statement (i : Instr) : Prop :=
  (Payload.call i).block = i.block ∧
    ∀ f bytes, encode i = some (f, bytes) → (Payload.encoded f bytes).block = i.block

theorem init : Statement .init :=
  ⟨rfl, fun _ _ h => by cases h; rfl⟩
theorem writeChar (c : Byte) : Statement (.writeChar c) :=
  ⟨rfl, fun _ _ h => by cases h; rfl⟩
theorem displayString (text : List Byte) (line : Line) : Statement (.displayString text line) :=
  ⟨rfl, fun _ _ h => by cases h; rfl⟩
theorem displayStringAt (text : List Byte) (line : Line) (col : Byte) : Statement (.displayStringAt text line col) :=
  ⟨rfl, fun _ _ h => by cases h; rfl⟩
theorem clear : Statement .clear :=
  ⟨rfl, fun _ _ h => by cases h; rfl⟩
theorem backlight (on : Bool) : Statement (.backlight on) :=
  ⟨rfl, fun _ _ h => by cases h; rfl⟩
theorem loadCustomChars (glyphs : List (List Byte)) : Statement (.loadCustomChars glyphs) :=
  ⟨rfl, fun _ _ h => by cases h; rfl⟩
theorem reserved7 : Statement .reserved7 :=
  ⟨rfl, fun _ _ h => by cases h; rfl⟩
theorem readFrame : Statement .readFrame :=
  ⟨rfl, fun _ _ h => by cases h; rfl⟩
theorem getTemperature : Statement .getTemperature :=
  ⟨rfl, fun _ _ h => by cases h; rfl⟩
theorem internalCelsius (raw : RawCode) : Statement (.internalCelsius raw) :=
  ⟨rfl, fun _ _ h => by cases h; rfl⟩
theorem thermocoupleCelsius (raw : RawCode) : Statement (.thermocoupleCelsius raw) :=
  ⟨rfl, fun _ _ h => by cases h; rfl⟩
theorem decode (word : FrameWord) : Statement (.decode word) :=
  ⟨rfl, fun _ _ h => by cases h; rfl⟩
theorem reservedD : Statement .reservedD :=
  ⟨rfl, fun _ _ h => by cases h; rfl⟩
theorem reservedE : Statement .reservedE :=
  ⟨rfl, fun _ _ h => by cases h; rfl⟩
theorem reservedF : Statement .reservedF :=
  ⟨rfl, fun _ _ h => by cases h; rfl⟩
theorem cmdClear : Statement .cmdClear :=
  ⟨rfl, fun _ _ h => by cases h; rfl⟩
theorem cmdHome : Statement .cmdHome :=
  ⟨rfl, fun _ _ h => by cases h; rfl⟩
theorem cmdReset4 : Statement .cmdReset4 :=
  ⟨rfl, fun _ _ h => by cases h; rfl⟩
theorem cmdEntry : Statement .cmdEntry :=
  ⟨rfl, fun _ _ h => by cases h; rfl⟩
theorem cmdDispctl : Statement .cmdDispctl :=
  ⟨rfl, fun _ _ h => by cases h; rfl⟩
theorem cmdFuncset : Statement .cmdFuncset :=
  ⟨rfl, fun _ _ h => by cases h; rfl⟩
theorem setCgramByte (a : BitVec 6) : Statement (.setCgramByte a) :=
  ⟨rfl, fun _ _ h => by cases h; rfl⟩
theorem setDdramByte (a : BitVec 7) : Statement (.setDdramByte a) :=
  ⟨rfl, fun _ _ h => by cases h; rfl⟩
theorem data (v : Byte) : Statement (.data v) :=
  ⟨rfl, fun _ _ h => by cases h; rfl⟩
theorem busByte (d : Nibble) (b e w r : Bool) : Statement (.busByte d b e w r) :=
  ⟨rfl, fun _ _ h => by cases h; rfl⟩
theorem rawBacklight (b : Bool) : Statement (.rawBacklight b) :=
  ⟨rfl, fun _ _ h => by cases h; rfl⟩
theorem frame (tSign : Bool) (tMag : BitVec 13) (x f iSign : Bool) (iMag : BitVec 11) (y : Bool) (c : BitVec 3) : Statement (.frame tSign tMag x f iSign iMag y c) :=
  ⟨rfl, fun _ _ h => by cases h; rfl⟩
theorem emit (b : Byte) : Statement (.emit b) :=
  ⟨rfl, fun _ _ h => by cases h⟩
theorem pause (t : Nat) : Statement (.pause t) :=
  ⟨rfl, fun _ _ h => by cases h⟩
theorem strobe (n : Nibble) (rs : Bool) : Statement (.strobe n rs) :=
  ⟨rfl, fun _ _ h => by cases h⟩
theorem write4 (n : Nibble) (rs : Bool) : Statement (.write4 n rs) :=
  ⟨rfl, fun _ _ h => by cases h⟩
theorem send (v : Byte) (rs : Bool) : Statement (.send v rs) :=
  ⟨rfl, fun _ _ h => by cases h⟩
theorem sendCmd (v : Byte) : Statement (.sendCmd v) :=
  ⟨rfl, fun _ _ h => by cases h⟩
theorem sendData (v : Byte) : Statement (.sendData v) :=
  ⟨rfl, fun _ _ h => by cases h⟩
theorem setDdram (a : BitVec 7) : Statement (.setDdram a) :=
  ⟨rfl, fun _ _ h => by cases h⟩
theorem setCgram (a : BitVec 6) : Statement (.setCgram a) :=
  ⟨rfl, fun _ _ h => by cases h⟩

end Sys2Proof.Laws.BlockOfWord
end

