-- ==== Sys2Proof/Laws/Step.lean ====
section
/-! SUPPORT. What a step can do, said once (step_cases), and what the choice of a move can be (R131). -/

namespace Sys2Proof.Machine

/-! ## The requests that may be granted -/

theorem grants_mem (idle : Bool) : ∀ (rs : List Request) (r : Request) (rest : List Request),
    (r, rest) ∈ grants idle rs →
      r ∈ rs ∧ (∀ x ∈ rest, x ∈ rs) ∧ (idle = true ∨ r.payload.block = .tfd)
  | [], _, _, h => by simp [grants] at h
  | q :: qs, r, rest, h => by
    simp only [grants, List.mem_append, List.mem_map, Prod.mk.injEq, Prod.exists] at h
    rcases h with h | ⟨x, l, hx, rfl, rfl⟩
    · split at h
      · next hc =>
        simp only [List.mem_singleton, Prod.mk.injEq] at h
        obtain ⟨rfl, rfl⟩ := h
        exact ⟨by simp, fun x hx => by simp [hx], by simpa using hc⟩
      · simp at h
    · obtain ⟨h1, h2, h3⟩ := grants_mem idle qs x l hx
      refine ⟨by simp [h1], fun y hy => ?_, h3⟩
      rcases List.mem_cons.mp hy with rfl | hy
      · simp
      · simp [h2 y hy]

/-- Granting a request leaves every other request held. -/
theorem grants_rest (idle : Bool) : ∀ (rs : List Request) (r : Request) (rest : List Request),
    (r, rest) ∈ grants idle rs → ∀ x ∈ rs, x = r ∨ x ∈ rest
  | [], _, _, h => by simp [grants] at h
  | q :: qs, r, rest, h => by
    simp only [grants, List.mem_append, List.mem_map, Prod.mk.injEq, Prod.exists] at h
    rcases h with h | ⟨x, l, hx, rfl, rfl⟩
    · split at h
      · simp only [List.mem_singleton, Prod.mk.injEq] at h
        obtain ⟨rfl, rfl⟩ := h
        intro x hx; simpa using hx
      · simp at h
    · intro y hy
      rcases List.mem_cons.mp hy with rfl | hy
      · simp
      · rcases grants_rest idle qs x l hx y hy with h | h
        · exact .inl h
        · simp [h]

/-- A free DPE may be granted every held request, each leaving the others held in their order. -/
theorem grants_idle : ∀ rs : List Request,
    grants true rs = (List.range rs.length).map fun k => (rs.getD k ⟨0, .call .init⟩, rs.eraseIdx k)
  | [] => rfl
  | r :: rs => by
    rw [grants, grants_idle rs, List.length_cons, List.range_succ_eq_map]
    simp [List.map_map, Function.comp_def]

/-- While the DPE is not free, a request to it stays held, in its place (R131). -/
theorem grants_held : ∀ (rs : List Request) (r : Request) (rest : List Request), (r, rest) ∈ grants false rs →
    rest.filter (fun x => x.payload.block == .dpe) = rs.filter fun x => x.payload.block == .dpe
  | [], _, _, h => by simp [grants] at h
  | q :: qs, r, rest, h => by
    simp only [grants, Bool.false_or, List.mem_append, List.mem_map, Prod.mk.injEq, Prod.exists] at h
    rcases h with h | ⟨x, l, hx, rfl, rfl⟩
    · split at h
      · next hc =>
        simp only [List.mem_singleton, Prod.mk.injEq] at h
        obtain ⟨rfl, rfl⟩ := h
        simp [show r.payload.block = .tfd by simpa using hc]
      · simp at h
    · simp only [List.filter_cons, grants_held qs x l hx]

/-- While the DPE is not free, every held request to the TFD may be granted (R21, R135): the k-th held request
is the grant whose number is that of the requests to the TFD before it. -/
theorem grants_tfd : ∀ (rs : List Request) (k : Nat) (h : k < rs.length), rs[k].payload.block = .tfd →
    (grants false rs)[(rs.take k).countP fun r => r.payload.block == .tfd]? = some (rs[k], rs.eraseIdx k)
  | [], _, h, _ => by simp at h
  | r :: rs, 0, _, hb => by simp [grants, show r.payload.block = .tfd from hb]
  | r :: rs, k + 1, h, hb => by
    have ih := grants_tfd rs k (by simpa using h) hb
    by_cases hr : r.payload.block = .tfd
    · simp [grants, hr, ih]
    · simp [grants, hr, ih]

/-! ## The choice of a move -/

theorem State.moves_resume (s : State) : Move.resume ∈ s.moves ↔ ∃ p, s.inProgress = some p := by
  simp [State.moves, Option.isSome_iff_exists]

theorem State.moves_grant (s : State) (r : Request) (rest : List Request) :
    Move.grant r rest ∈ s.moves ↔ (r, rest) ∈ grants s.dpeIdle s.requests := by
  simp only [State.moves, List.mem_append, List.mem_map, Move.grant.injEq, Prod.exists]
  constructor
  · rintro (h | ⟨a, b, h, rfl, rfl⟩)
    · split at h <;> simp at h
    · exact h
  · exact fun h => .inr ⟨r, rest, h, rfl, rfl⟩

theorem getD_mod_mem (m : Move) (ms : List Move) (k : Nat) : (m :: ms).getD (k % (ms.length + 1)) m ∈ m :: ms := by
  have hlt : k % (ms.length + 1) < (m :: ms).length := by
    simpa using Nat.mod_lt k (Nat.succ_pos ms.length)
  rw [List.getD_eq_getElem?_getD, List.getElem?_eq_getElem hlt]
  exact List.getElem_mem hlt

/-- A chosen move is one of the open ones; the choice changes the schedule and its counter alone. -/
theorem State.choose_some (s s' : State) (m : Move) (h : s.choose = some (m, s')) :
    m ∈ s.moves ∧ ∃ ks n, s' = s.chosen ks n := by
  cases hm : s.moves with
  | nil => simp [State.choose, hm] at h
  | cons m0 ms =>
    cases hs : s.schedule with
    | cons k ks =>
      simp only [State.choose, hm, hs, Option.some.injEq, Prod.mk.injEq] at h
      exact ⟨h.1 ▸ getD_mod_mem m0 ms k, _, _, h.2.symm⟩
    | nil =>
      cases ms with
      | nil =>
        simp only [State.choose, hm, hs, Option.some.injEq, Prod.mk.injEq] at h
        exact ⟨by simp [h.1], _, _, h.2.symm⟩
      | cons m1 ms =>
        simp only [State.choose, hm, hs, Option.some.injEq, Prod.mk.injEq] at h
        exact ⟨h.1 ▸ getD_mod_mem m0 (m1 :: ms) _, _, _, h.2.symm⟩

theorem State.choose_none (s : State) : s.choose = none ↔ s.moves = [] := by
  unfold State.choose
  split <;> simp_all

/-- The schedule's first entry is the choice (R131). -/
theorem State.choose_schedule (s : State) (m : Move) (ms : List Move) (k : Nat) (ks : List Nat)
    (hm : s.moves = m :: ms) (hs : s.schedule = k :: ks) :
    s.choose = some ((m :: ms).getD (k % (ms.length + 1)) m, s.chosen ks s.freeCount) := by
  simp only [State.choose, hm, hs]

/-- The schedule names the move with its number (R131). -/
theorem State.choose_number (s : State) (k : Nat) (ks : List Nat) (m : Move) (hm : s.moves[k]? = some m)
    (hs : s.schedule = k :: ks) : s.choose = some (m, s.chosen ks s.freeCount) := by
  obtain ⟨hk, he⟩ := List.getElem?_eq_some_iff.mp hm
  cases hmm : s.moves with
  | nil => simp [hmm] at hk
  | cons m0 ms =>
    have hl : k < ms.length + 1 := by simpa [hmm] using hk
    rw [s.choose_schedule m0 ms k ks hmm hs, Nat.mod_eq_of_lt hl, List.getD_eq_getElem?_getD, ← hmm, hm]; rfl

/-- The first move is the choice where the schedule says so, or where it is the only one. -/
theorem State.choose_first (s : State) (m : Move) (ms : List Move) (hm : s.moves = m :: ms)
    (h : s.schedule.head? = some 0 ∨ ms = []) :
    s.choose = some (m, s.chosen s.schedule.tail s.freeCount) := by
  cases hs : s.schedule with
  | nil =>
    rcases h with h | h
    · simp [hs] at h
    · subst h; simp [State.choose, hm, hs]
  | cons k ks =>
    rw [State.choose_schedule s m ms k ks hm hs]
    rcases h with h | h
    · simp [hs] at h; subst h; simp
    · subst h; simp [Nat.mod_one]

/-- On a free DPE granting the first held request is the first move. -/
theorem State.moves_free (s : State) (r : Request) (rest : List Request) (hf : s.free)
    (hq : s.requests = r :: rest) : ∃ ms, s.moves = .grant r rest :: ms ∧ (rest = [] → ms = []) := by
  have := s.dpeIdle_iff.mpr hf
  refine ⟨(grants true rest).map fun x => Move.grant x.1 (r :: x.2), ?_, ?_⟩
  · simp [State.moves, hf.2, this, hq, grants, Function.comp_def]
  · rintro rfl; rfl

/-! ## Steps -/

theorem step_reset (s : State) (h : s.resetAsserted = true) : step s = .next s.resetDpe := by
  simp [step, h]

theorem step_idle (s : State) (hr : s.resetAsserted = false) (h : s.moves = []) : step s = .next s := by
  simp [step, hr, s.choose_none.mpr h]

/-- What a step that answers next can be: a reset, an idle step, the operation in progress going on, or
a granted request whose instruction is executed. -/
theorem step_cases (s t : State) (h : step s = .next t) :
    (s.resetAsserted = true ∧ t = s.resetDpe) ∨
    (s.resetAsserted = false ∧ s.moves = [] ∧ t = s) ∨
    (s.resetAsserted = false ∧ (∃ p, s.inProgress = some p) ∧ ∃ ks n, t = (s.chosen ks n).drive) ∨
    (s.resetAsserted = false ∧ ∃ ks n r rest i, (r, rest) ∈ grants s.dpeIdle s.requests ∧
      r.payload.fetch = .ok i ∧ exec i ((s.chosen ks n).serve rest r.caller) = .next t) := by
  by_cases hr : s.resetAsserted = true
  · rw [step_reset s hr] at h; cases h; exact .inl ⟨hr, rfl⟩
  · right
    rw [Bool.not_eq_true] at hr
    simp only [step, hr, Bool.false_eq_true, if_false] at h
    split at h
    · next hc => cases h; exact .inl ⟨hr, s.choose_none.mp hc, rfl⟩
    · next s' hc =>
      obtain ⟨hm, ks, n, rfl⟩ := s.choose_some _ _ hc
      cases h
      exact .inr (.inl ⟨hr, s.moves_resume.mp hm, ks, n, rfl⟩)
    · next r rest s' hc =>
      obtain ⟨hm, ks, n, rfl⟩ := s.choose_some _ _ hc
      split at h
      · cases h
      · next i hi => exact .inr (.inr ⟨hr, ks, n, r, rest, i, (s.moves_grant r rest).mp hm, hi, h⟩)

/-- A step whose chosen move grants a request. -/
theorem step_grant (s : State) (r : Request) (rest : List Request) (ks : List Nat) (n : Nat)
    (hr : s.resetAsserted = false) (hc : s.choose = some (.grant r rest, s.chosen ks n)) :
    step s = match r.payload.fetch with
      | .error why => .fault why
      | .ok i => exec i ((s.chosen ks n).serve rest r.caller) := by
  cases hf : r.payload.fetch <;> simp [step, hr, hc, hf]

/-- A step whose chosen move goes on with the operation in progress: the first of the moves. -/
theorem step_resume (s : State) (p : InProgress) (hr : s.resetAsserted = false) (hp : s.inProgress = some p)
    (h : s.schedule.head? = some 0 ∨ s.requests = []) :
    step s = .next (s.chosen s.schedule.tail s.freeCount).drive := by
  have hm : s.moves = .resume :: (grants s.dpeIdle s.requests).map fun x => Move.grant x.1 x.2 := by
    simp [State.moves, hp]
  have hc := s.choose_first _ _ hm (h.imp id fun hq => by simp [hq, grants])
  simp [step, hr, hc]

/-! ## What a request carries -/

/-- A request by name carries that operation. -/
theorem Payload.fetch_call (i : Instr) (h : i.isHostOp = true) : (Payload.call i).fetch = .ok i := by
  simp [Payload.fetch, h]

/-- A request with bytes carries what the decoder reads from them. -/
theorem Payload.fetch_encoded (f : Format) (bytes : List Byte) (i : Instr) (h : decodeRow f bytes = .ok i) :
    (Payload.encoded f bytes).fetch = .ok i := by
  simp [Payload.fetch, h]

/-- A request carries an instruction of the block it is for (R58). -/
theorem Payload.fetch_block (p : Payload) (i : Instr) (h : p.fetch = .ok i) : i.block = p.block := by
  cases p with
  | call j =>
    simp only [Payload.fetch] at h
    split at h <;> cases h; rfl
  | encoded f bytes =>
    simp only [Payload.fetch] at h
    split at h <;> cases h
    next hd => exact decodeRow_block f bytes _ hd

end Sys2Proof.Machine
end

