-- ==== Sys2Proof/Laws/Units.lean ====
section
/-! SUPPORT. Lists of whole units: how their traces join, and the units of each operation of the DPE (R80,
R87 to R96). -/

namespace Sys2Proof.Machine

theorem unitTrace_append (cfg : Config) : ∀ (on : Bool) (us vs : List BusUnit),
    unitTrace cfg on (us ++ vs) = unitTrace cfg on us ++ unitTrace cfg (unitLight on us) vs
  | _, [], _ => rfl
  | _, .byte _ _ :: us, vs => by simp [unitTrace, unitLight, unitTrace_append _ _ us vs]
  | _, .raw _ :: us, vs => by simp [unitTrace, unitLight, unitTrace_append _ _ us vs]
  | _, .settle :: us, vs => by simp [unitTrace, unitLight, unitTrace_append _ _ us vs]

theorem unitLight_append : ∀ (on : Bool) (us vs : List BusUnit),
    unitLight on (us ++ vs) = unitLight (unitLight on us) vs
  | _, [], _ => rfl
  | _, .byte _ _ :: us, vs => by simp [unitLight, unitLight_append _ us vs]
  | _, .raw _ :: us, vs => by simp [unitLight, unitLight_append _ us vs]
  | _, .settle :: us, vs => by simp [unitLight, unitLight_append _ us vs]

theorem unitTrace_bytes (cfg : Config) (on : Bool) : ∀ l : List (Byte × Bool),
    unitTrace cfg on (l.map fun x => .byte x.1 x.2) = l.flatMap (fun x => byteEvents cfg on x.1 x.2) ∧
      unitLight on (l.map fun x => .byte x.1 x.2) = on
  | [] => ⟨rfl, rfl⟩
  | x :: l => by simp [unitTrace, unitLight, unitTrace_bytes cfg on l]

/-- The backlight bit after an operation with this ending that succeeds (R95). -/
def Ending.lightAfter (e : Ending) (on : Bool) : Bool := e.light false on

/-- Every accepted operation of the DPE is a list of whole units. -/
theorem opEvents_units (s : State) (i : Instr) (es : List DpeEvent) (h : opEvents s i = some es) :
    ∃ us, es = unitTrace s.cfg s.backlightOn us ∧
      unitLight s.backlightOn us = (endingOf i).lightAfter s.backlightOn := by
  have data : ∀ t : List Byte,
      dataEvents s.cfg s.backlightOn t = unitTrace s.cfg s.backlightOn (t.map fun v => .byte v true) ∧
        unitLight s.backlightOn (t.map fun v => .byte v true) = s.backlightOn := by
    intro t
    have := unitTrace_bytes s.cfg s.backlightOn (t.map fun v => (v, true))
    simp only [List.map_map, List.flatMap_map] at this
    exact ⟨this.1.symm, this.2⟩
  have command : ∀ v t, commandEvents s.cfg s.backlightOn v ++ dataEvents s.cfg s.backlightOn t =
      unitTrace s.cfg s.backlightOn (.byte v false :: t.map fun v => .byte v true) := by
    intro v t; rw [(data t).1]; rfl
  cases i <;> simp only [opEvents, Option.some.injEq] at h <;> first | (cases h; done) | skip
  case init =>
    refine ⟨([s.cfg.cmdReset4, s.cfg.cmdReset4, s.cfg.cmdReset4, s.cfg.cmdMode4, s.cfg.cmdFuncset,
      s.cfg.cmdDispctl, s.cfg.cmdClear, s.cfg.cmdEntry].map fun v => .byte v false) ++ [.settle], ?_, rfl⟩
    rw [← h]; simp [unitTrace, commandEvents]
  case writeChar c => exact ⟨[.byte c true], by rw [← h]; simp [unitTrace, dataEvents], rfl⟩
  case displayString text line =>
    split at h <;> cases h
    exact ⟨_, command _ _, (data text).2⟩
  case displayStringAt text line col =>
    split at h <;> cases h
    exact ⟨_, command _ _, (data text).2⟩
  case clear =>
    exact ⟨[.byte s.cfg.cmdClear false, .byte s.cfg.cmdHome false],
      by rw [← h]; simp [unitTrace, commandEvents], rfl⟩
  case backlight on => exact ⟨[.raw on], by rw [← h]; rfl, rfl⟩
  case loadCustomChars g =>
    split at h <;> cases h
    exact ⟨_, command _ _, (data _).2⟩

end Sys2Proof.Machine
end

