-- ==== Sys2Proof/Tests/Slice0.lean ====
section
/-! SUPPORT. The model's own tests: well-formedness, decoding of words written out from the encodings of
spec/30_encoding.md, one step per instruction against spec/95_test_vectors.md, and a witness for the
hypotheses of each statement that has some. -/

namespace Sys2Proof.Tests

open Sys2Proof Sys2Proof.Machine

/-! ## Helpers -/

/-- The state an outcome goes on in. -/
def next? : Host.Outcome State Fault Refusal → Option State
  | .next s => some s
  | .fault _ | .refused _ => none

/-- The state after reset with the backlight bit as given. -/
def lit (on : Bool) : State := { State.reset with backlightOn := on }

/-- The same with the answers to the next bus writes. -/
def answering (answers : List BusAnswer) (on : Bool) : State := { lit on with bus := ⟨answers, .ok, [], .elapsed⟩ }

/-- The same with the ends of the next waits: those given end or not, and no later wait ends. -/
def waiting (waits : List WaitAnswer) (on : Bool) : State := { lit on with bus := ⟨[], .ok, waits, .notYet⟩ }

/-- The trace of nibble transactions, written as their bytes: three writes, the waits 100, 500 and 100. -/
def pulses : List Byte → List DpeEvent
  | a :: b :: c :: rest => [.W a, .D 100, .W b, .D 500, .W c, .D 100] ++ pulses rest
  | _ => []

/-- The DPE's trace after an instruction. -/
def traceOf (i : Instr) (s : State) : Option (List DpeEvent) := (next? (exec i s)).map State.dpeTrace

/-- The DPE's responses after an instruction. -/
def dpeResults (i : Instr) (s : State) : Option (List Response) := (next? (exec i s)).map State.dpeResponses

/-- The TFD's responses after an instruction. -/
def tfdResults (i : Instr) (s : State) : Option (List Response) := (next? (exec i s)).map State.tfdResponses

/-- A TFD whose next transfer is answered. -/
def frameAnswer (answer : TransferAnswer) : State := { State.reset with transferAfter := answer }

/-! ## Well-formedness: an ill-formed term for each check, which the check refuses -/

theorem test_wf_refuses_sixteen_glyphs :
    (Instr.loadCustomChars (List.replicate 16 (List.replicate 8 0))).wf = false := by decide
theorem test_wf_refuses_seven_rows : (Instr.loadCustomChars [[1, 2, 3, 4, 5, 6, 7]]).wf = false := by decide
theorem test_wf_refuses_read_bit : (Instr.busByte 0x4 true true true false).wf = false := by decide
theorem test_wf_refuses_other_wait : (Instr.pause 7).wf = false := by decide
theorem test_wf_refuses_other_command : (Instr.sendCmd 0x55).wf = false := by decide
theorem test_wf_masks_refuse_equal : (Config.masksOk { defaultConfig with enMask := 0x01 }) = false := by decide
theorem test_wf_masks_refuse_two_bits : (Config.masksOk { defaultConfig with enMask := 0x0C }) = false := by decide
theorem test_wf_masks_default : defaultConfig.masksOk = true := by decide

/-! ## Decoding: words written out from R58, R52, R53, R51, R46, R50 and R59 -/

theorem test_decode_init : decodeRow .opw [0b00000000] = .ok (.init) := by decide
theorem test_decode_writeChar : decodeRow .opw [0b00000001, 0x41] = .ok (.writeChar 0x41) := by decide
theorem test_decode_displayString : decodeRow .opw [0b00000010, 0b00000011, 0x48, 0x69] = .ok (.displayString [0x48, 0x69] .L4) := by decide
theorem test_decode_displayStringAt : decodeRow .opw [0b00000011, 0b00000010, 0x6B, 0x41] = .ok (.displayStringAt [0x41] .L3 0x6B) := by decide
theorem test_decode_clear : decodeRow .opw [0b00000100] = .ok (.clear) := by decide
theorem test_decode_backlight : decodeRow .opw [0b00000101, 0b00000001] = .ok (.backlight true) := by decide
theorem test_decode_loadCustomChars : decodeRow .opw [0b00000110, 0b00000001, 1, 2, 3, 4, 5, 6, 7, 8] = .ok (.loadCustomChars [[1, 2, 3, 4, 5, 6, 7, 8]]) := by decide
theorem test_decode_reserved7 : decodeRow .opw [0b00000111] = .ok (.reserved7) := by decide
theorem test_decode_readFrame : decodeRow .opw [0b00001000] = .ok (.readFrame) := by decide
theorem test_decode_getTemperature : decodeRow .opw [0b00001001] = .ok (.getTemperature) := by decide
theorem test_decode_internalCelsius : decodeRow .opw [0b00001010, 0x01, 0x90] = .ok (.internalCelsius 400) := by decide
theorem test_decode_thermocoupleCelsius : decodeRow .opw [0b00001011, 0xFC, 0x18] = .ok (.thermocoupleCelsius (-1000)) := by decide
theorem test_decode_decode : decodeRow .opw [0b00001100, 0x12, 0x34, 0x56, 0x78] = .ok (.decode 0x12345678) := by decide
theorem test_decode_reservedD : decodeRow .opw [0b00001101] = .ok (.reservedD) := by decide
theorem test_decode_reservedE : decodeRow .opw [0b00001110] = .ok (.reservedE) := by decide
theorem test_decode_reservedF : decodeRow .opw [0b00001111] = .ok (.reservedF) := by decide
theorem test_decode_cmdClear : decodeRow .lcdCmd [0b00000001] = .ok (.cmdClear) := by decide
theorem test_decode_cmdHome : decodeRow .lcdCmd [0b00000010] = .ok (.cmdHome) := by decide
theorem test_decode_cmdReset4 : decodeRow .lcdCmd [0b00000011] = .ok (.cmdReset4) := by decide
theorem test_decode_cmdEntry : decodeRow .lcdCmd [0b00000110] = .ok (.cmdEntry) := by decide
theorem test_decode_cmdDispctl : decodeRow .lcdCmd [0b00001100] = .ok (.cmdDispctl) := by decide
theorem test_decode_cmdFuncset : decodeRow .lcdCmd [0b00101000] = .ok (.cmdFuncset) := by decide
theorem test_decode_setCgramByte : decodeRow .lcdCmd [0b01100001] = .ok (.setCgramByte 0b100001) := by decide
theorem test_decode_setDdramByte : decodeRow .lcdCmd [0b11000101] = .ok (.setDdramByte 0b1000101) := by decide
theorem test_decode_data : decodeRow .lcdData [0b10100101] = .ok (.data 0xA5) := by decide
theorem test_decode_busByte : decodeRow .busByte [0b01001101] = .ok (.busByte 0x4 true true false true) := by decide
theorem test_decode_rawBacklight : decodeRow .rawBl [0b00001000] = .ok (.rawBacklight true) := by decide
theorem test_decode_frame : decodeRow .frame [0b10000000, 0b00000110, 0b10000000, 0b00011010] = .ok (.frame true 1 true false true 1 true 2) := by decide

/-! ### Rejections, by name -/

theorem test_reject_no_byte : decodeRow .opw [] = .error .empty := by decide
theorem test_reject_op_above_15 : decodeRow .opw [0x10] = .error .opHighBits := by decide
theorem test_reject_missing_operand : decodeRow .opw [0x01] = .error .operandCount := by decide
theorem test_reject_line_5 : decodeRow .opw [0x02, 0x04] = .error .lineHighBits := by decide
theorem test_reject_on_2 : decodeRow .opw [0x05, 0x02] = .error .onHighBits := by decide
theorem test_reject_glyph_count_16 : decodeRow .opw [0x06, 0x10] = .error .glyphCountHighBits := by decide
theorem test_reject_function_set_8_bit : decodeRow .lcdCmd [0x38] = .error .commandNotEmitted := by decide
theorem test_reject_raw_with_nibble : decodeRow .rawBl [0x18] = .error .notRawBacklight := by decide
theorem test_reject_short_frame : decodeRow .frame [0, 0, 0] = .error .length := by decide

/-! ### Encoding, and the words of the opcode table -/

theorem test_encode_frame : encode (.frame true 1 true false true 1 true 2) =
    some (.frame, [0b10000000, 0b00000110, 0b10000000, 0b00011010]) := by decide
theorem test_encode_displayStringAt : encode (.displayStringAt [0x41] .L2 5) = some (.opw, [0x03, 0x01, 0x05, 0x41]) := by
  decide
theorem test_table_word_op : decodeTableWord 8 0x3 = some (.displayStringAt [] .L1 0) := by decide
theorem test_table_word_command : decodeTableWord 8 0xC5 = some (.setDdramByte 0x45) := by decide
theorem test_table_word_data : decodeTableWord 8 0x38 = some (.data 0x38) := by decide
theorem test_table_word_frame : decodeTableWord 32 0x01901900 =
    some (.frame false 100 false false false 400 false 0) := by decide
theorem test_fetch_word_runs : (next? (step (State.reset.withFetchWord 8 0x4))).map State.dpeTrace =
    some (pulses [0x00, 0x04, 0x00, 0x10, 0x14, 0x10, 0x00, 0x04, 0x00, 0x20, 0x24, 0x20]) := by decide
theorem test_fetch_word_refused : (next? (step (State.reset.withFetchWord 16 0x4))).isNone = true := by decide

/-! ## The operations of the DPE (spec/95 V3, P1, P4) -/

theorem test_init : (next? (exec .init (lit true))).map (fun s => (s.initDone, s.dpeTrace.length,
    s.dpeTrace.take 12 == pulses [0x08, 0x0C, 0x08, 0x38, 0x3C, 0x38], s.dpeTrace.getLast?)) =
    some (true, 97, true, some (.D 200)) := by decide
theorem test_writeChar : traceOf (.writeChar 0x41) (lit false) = some (pulses [0x41, 0x45, 0x41, 0x11, 0x15, 0x11]) := by
  decide
theorem test_displayString : traceOf (.displayString [0x41] .L4) (lit false) = some (pulses [0xD0, 0xD4, 0xD0, 0x40, 0x44, 0x40, 0x41, 0x45, 0x41, 0x11, 0x15, 0x11]) := by
  decide
theorem test_displayStringAt : traceOf (.displayStringAt [0x41] .L2 5) (lit true) = some (pulses [0xC8, 0xCC, 0xC8, 0x58, 0x5C, 0x58, 0x49, 0x4D, 0x49, 0x19, 0x1D, 0x19]) := by
  decide
theorem test_displayStringAt_no_wrap : dpeResults (.displayStringAt [] .L4 0xFF) (lit true) =
    some [⟨0, .invalidOperand⟩] := by decide
theorem test_clear : traceOf (.clear) (lit true) = some (pulses [0x08, 0x0C, 0x08, 0x18, 0x1C, 0x18, 0x08, 0x0C, 0x08, 0x28, 0x2C, 0x28]) := by
  decide
theorem test_backlight : (next? (exec (.backlight true) (lit false))).map (fun s => (s.backlightOn, s.dpeTrace)) =
    some (true, [.W 0x08]) := by decide
theorem test_backlight_failed : (next? (exec (.backlight false) (answering [.transportError] true))).map
    (fun s => (s.backlightOn, s.terrSeen, s.dpeTrace)) = some (true, true, [.WF 0x00]) := by decide
theorem test_loadCustomChars : (traceOf (.loadCustomChars [[0x00, 0x0A, 0x1F, 0x1F, 0x0E, 0x04, 0x00, 0x00]])
    (lit true)).map (fun t => (t.length, t.take 36 == pulses [0x48, 0x4C, 0x48, 0x08, 0x0C, 0x08,
      0x09, 0x0D, 0x09, 0x09, 0x0D, 0x09, 0x09, 0x0D, 0x09, 0xA9, 0xAD, 0xA9])) = some (108, true) := by decide
theorem test_loadCustomChars_nine_rows : (next? (exec (.loadCustomChars [List.replicate 8 0, List.replicate 9 0])
    (lit false))).map (fun s => (s.dpeTrace, s.dpeResponses)) = some ([], [⟨0, .invalidOperand⟩]) := by decide
theorem test_reserved7 : dpeResults .reserved7 (lit false) = some [⟨0, .invalidOperand⟩] := by decide

/-! ### Transport errors (spec/95 V4, P7) and the lock (S7) -/

theorem test_writeChar_aborted : (next? (exec (.writeChar 0x41) (answering [.ok, .transportError] false))).map
    (fun s => (s.dpeTrace, s.dpeResponses, s.terrSeen, s.busy)) =
    some ([.W 0x41, .D 100, .WF 0x45], [⟨0, .transportError⟩], true, false) := by decide
theorem test_writeChar_continued :
    (next? (exec (.writeChar 0x41)
      { answering [.ok, .transportError, .ok, .ok, .transportError] false with
        cfg := { defaultConfig with terrPolicy := .continueOn } })).map
      (fun s => (s.dpeTrace, s.dpeResponses)) =
    some ([.W 0x41, .D 100, .WF 0x45, .D 500, .W 0x41, .D 100, .W 0x11, .D 100, .WF 0x15, .D 500, .W 0x11, .D 100],
      [⟨0, .transportError⟩]) := by decide
theorem test_clear_continued : (traceOf .clear
      { answering (List.replicate 7 .ok ++ [.transportError]) false with
        cfg := { defaultConfig with terrPolicy := .continueOn } }).map (fun t => (t.length, t.drop 14 |>.take 2)) =
    some (24, [.WF 0x04, .D 500]) := by decide
theorem test_unanswered_write_holds_the_lock : (next? (exec .clear (answering [.notYet] false))).map
    (fun s => (s.busy, s.inProgress.isSome, s.dpeTrace, s.dpeResponses)) = some (true, true, [], []) := by decide
/-- R140 and spec/93 U12: a wait that does not end: W(b) with no D(t) behind it, busy = 1, no result. -/
theorem test_endless_wait_holds_the_lock : (next? (exec .clear (waiting [] false))).map
    (fun s => (s.busy, s.inProgress.isSome, s.dpeTrace, s.dpeResponses)) = some (true, true, [.W 0x00], []) := by decide
/-- The settle that ends init() does not end: 96 events and no init_done; a reset lands in it. -/
theorem test_init_waits_at_its_end : (next? (exec .init (waiting (List.replicate 48 .elapsed) false))).map
    (fun s => (s.busy, s.initDone, s.dpeTrace.length, s.inProgress.map InProgress.todo)) =
    some (true, false, 96, some [.wait 200]) := by decide
theorem test_reset_in_the_last_wait : (next? (step { State.reset with
      busy := true, resetAsserted := true, dpeTrace := [.W 0x00], inProgress := some ⟨[.wait 200], false, .init, 0⟩ })).map
    (fun t => (t.busy, t.initDone, t.dpeTrace, t.dpeResponses)) = some (false, false, [], []) := by decide
theorem test_busy_holds_the_request : (next? (exec .clear { lit false with busy := true })).map
    (fun s => (s.requests, s.dpeTrace)) = some ([⟨0, .call .clear⟩], []) := by decide
/-- Two hosts ask at once: here B's backlight(0) is granted first. -/
theorem test_grant_order_B_then_A : (next? (core.run 2 { lit true with
      requests := [⟨1, .call (.writeChar 0x41)⟩, ⟨2, .call (.backlight false)⟩], schedule := [1] })).map
      (fun s => (s.dpeTrace, s.dpeResponses)) =
    some (.W 0x00 :: pulses [0x41, 0x45, 0x41, 0x11, 0x15, 0x11], [⟨2, .ok⟩, ⟨1, .ok⟩]) := by decide
theorem test_reset : (next? (step { lit true with
      resetAsserted := true, busy := true, terrSeen := true, initDone := true, dpeTrace := [.W 0],
      inProgress := some ⟨[.write 1], true, .plain, 0⟩,
      requests := [⟨1, .call .clear⟩, ⟨2, .call .readFrame⟩] })).map
      (fun s => ([s.backlightOn, s.busy, s.initDone, s.terrSeen, s.inProgress.isSome], s.dpeTrace, s.requests)) =
    some ([false, false, false, false, false], [], [⟨2, .call .readFrame⟩]) := by decide
theorem test_primitive_by_name_is_no_request :
    step { State.reset with requests := [⟨0, .call (.emit 0)⟩] } = .fault .notRequestable := rfl

/-! ## Primitives and single bytes (spec/95 V2, and its table of command and data bytes) -/

theorem test_emit : traceOf (.emit 0x4C) (lit false) = some [.W 0x4C] := by decide
theorem test_pause : traceOf (.pause 500) (lit false) = some [.D 500] := by decide
theorem test_strobe : traceOf (.strobe 0x4 false) (lit true) = some [.W 0x4C, .D 500, .W 0x48, .D 100] := by decide
theorem test_strobe_data : traceOf (.strobe 0xF true) (lit false) = some [.W 0xF5, .D 500, .W 0xF1, .D 100] := by decide
theorem test_write4 : traceOf (.write4 0x4 true) (lit false) = some (pulses [0x41, 0x45, 0x41]) := by
  decide
theorem test_write4_lit : traceOf (.write4 0x0 false) (lit true) = some (pulses [0x08, 0x0C, 0x08]) := by
  decide
theorem test_send : traceOf (.send 0x48 true) (lit true) = some (pulses [0x49, 0x4D, 0x49, 0x89, 0x8D, 0x89]) := by
  decide
theorem test_sendCmd : traceOf (.sendCmd 0x0C) (lit true) = some (pulses [0x08, 0x0C, 0x08, 0xC8, 0xCC, 0xC8]) := by
  decide
theorem test_sendData : traceOf (.sendData 0x41) (lit false) = some (pulses [0x41, 0x45, 0x41, 0x11, 0x15, 0x11]) := by
  decide
theorem test_setDdram : traceOf (.setDdram 0x7F) (lit true) = some (pulses [0xF8, 0xFC, 0xF8, 0xF8, 0xFC, 0xF8]) := by
  decide
theorem test_setCgram : traceOf (.setCgram 0) (lit true) = some (pulses [0x48, 0x4C, 0x48, 0x08, 0x0C, 0x08]) := by
  decide
theorem test_cmdClear : traceOf (.cmdClear) (lit false) = some (pulses [0x00, 0x04, 0x00, 0x10, 0x14, 0x10]) := by
  decide
theorem test_cmdHome : traceOf (.cmdHome) (lit true) = some (pulses [0x08, 0x0C, 0x08, 0x28, 0x2C, 0x28]) := by
  decide
theorem test_cmdReset4 : traceOf (.cmdReset4) (lit true) = some (pulses [0x08, 0x0C, 0x08, 0x38, 0x3C, 0x38]) := by
  decide
theorem test_cmdEntry : traceOf (.cmdEntry) (lit false) = some (pulses [0x00, 0x04, 0x00, 0x60, 0x64, 0x60]) := by
  decide
theorem test_cmdDispctl : traceOf (.cmdDispctl) (lit true) = some (pulses [0x08, 0x0C, 0x08, 0xC8, 0xCC, 0xC8]) := by
  decide
theorem test_cmdFuncset : traceOf (.cmdFuncset) (lit false) = some (pulses [0x20, 0x24, 0x20, 0x80, 0x84, 0x80]) := by
  decide
theorem test_setCgramByte : traceOf (.setCgramByte 0) (lit true) = some (pulses [0x48, 0x4C, 0x48, 0x08, 0x0C, 0x08]) := by
  decide
theorem test_setDdramByte : traceOf (.setDdramByte 0x45) (lit false) = some (pulses [0xC0, 0xC4, 0xC0, 0x50, 0x54, 0x50]) := by
  decide
theorem test_data : traceOf (.data 0xFF) (lit true) = some (pulses [0xF9, 0xFD, 0xF9, 0xF9, 0xFD, 0xF9]) := by
  decide
theorem test_busByte : traceOf (.busByte 0x4 true true false true) (lit false) = some [.W 0x4D] := by decide
theorem test_rawBacklight : (next? (exec (.rawBacklight true) (lit false))).map
    (fun s => (s.dpeTrace, s.backlightOn)) = some ([.W 0x08], false) := by decide
theorem test_trace_reader : logicalBytes defaultConfig (pulses [0x88, 0x8C, 0x88, 0x08, 0x0C, 0x08,
    0x49, 0x4D, 0x49, 0x89, 0x8D, 0x89]) = some [(0x80, false), (0x48, true)] := by decide

/-! ## The TFD (spec/95 S3 to S6, V5 to V7) -/

theorem test_readFrame : (next? (exec .readFrame (frameAnswer (.frame 0xF0 0x60 0xC9 0x00)))).map
    (fun s => (s.tfdTrace, s.tfdResponses)) =
    some ([.X 0xF0 0x60 0xC9 0x00], [⟨0, .readResult ⟨-879, -999, 0⟩⟩]) := by decide
theorem test_readFrame_error : (next? (exec .readFrame (frameAnswer .transportError))).map
    (fun s => (s.tfdTrace, s.tfdResponses)) = some ([.XF], [⟨0, .transportError⟩]) := by decide
theorem test_getTemperature : tfdResults .getTemperature (frameAnswer (.frame 0x00 0x18 0x01 0x47)) =
    some [⟨0, .temperature ⟨6, 2⟩⟩] := by decide
theorem test_getTemperature_fault : tfdResults .getTemperature (frameAnswer (.frame 0x00 0x19 0x01 0x41)) =
    some [⟨0, .fault 1⟩] := by decide
theorem test_internalCelsius : tfdResults (.internalCelsius 400) State.reset =
    some [⟨0, .celsius ⟨0x0190, 4⟩⟩] := by decide
theorem test_thermocoupleCelsius : tfdResults (.thermocoupleCelsius (-1000)) State.reset =
    some [⟨0, .celsius ⟨0xFC18, 2⟩⟩] := by decide
theorem test_decode : tfdResults (.decode 0x81901900) State.reset =
    some [⟨0, .readResult ⟨400, -8091, 0⟩⟩] := by decide
theorem test_decode_twos_complement :
    tfdResults (.decode 0xFFFEFFFF) { State.reset with cfg := { defaultConfig with negRule := .twosComplement } } =
      some [⟨0, .readResult ⟨-1, -1, 0⟩⟩] := by decide
theorem test_reservedD : tfdResults .reservedD State.reset = some [⟨0, .invalidOperand⟩] := by decide
theorem test_reservedE : tfdResults .reservedE State.reset = some [⟨0, .invalidOperand⟩] := by decide
theorem test_reservedF : tfdResults .reservedF State.reset = some [⟨0, .invalidOperand⟩] := by decide
theorem test_frame : tfdResults (.frame false 0 true true false 0 true 7) State.reset =
    some [⟨0, .readResult ⟨0, 0, 7⟩⟩] := by decide
theorem test_encoder_formula : encodeInternal .formula (-880) = 0x0000C8F0 ∧
    encodeThermocouple .twosComplement (-1000) = 0xF0600000 := by decide
theorem test_not_representable : representable .formula 11 (-2048) = false := by decide

/-! ## Witnesses: a state and operands that meet all hypotheses of a statement together -/

theorem witness_ComposeSetsExactlyItsBits : defaultConfig.masksOk = true := by decide
theorem witness_DecodeOfEncodeIsTheInstruction :
    (Instr.loadCustomChars (List.replicate 15 (List.replicate 8 0xFF))).wf = true ∧
      (encode (.loadCustomChars (List.replicate 15 (List.replicate 8 0xFF)))).isSome = true := by decide
theorem witness_EveryWordHasOneMeaning : decodeRow .opw [0x03, 0x03, 0xFF] = .ok (.displayStringAt [] .L4 0xFF) ∧
    Instr.displayStringAt [] .L4 0xFF ≠ .reserved7 ∧ Instr.displayStringAt [] .L4 0xFF ≠ .reservedD ∧
    Instr.displayStringAt [] .L4 0xFF ≠ .reservedE ∧ Instr.displayStringAt [] .L4 0xFF ≠ .reservedF := by decide
theorem witness_OnlyHostOperationsOnTheCommandPort : decodeRow .opw [0x00] = .ok .init ∧
    encode (.pause 100) = none ∧
    (Instr.pause 100).isPrimitive = true := by decide
/-- The second of two held requests names a byte row. -/
def namedRow : State :=
  { lit true with requests := [⟨3, .call .clear⟩, ⟨4, .call (.data 0x41)⟩], schedule := [1] }
theorem witness_OnlyHostOperationsOnTheCommandPort_step : ∃ h : 1 < namedRow.requests.length,
    namedRow.resetAsserted = false ∧ namedRow.free ∧ namedRow.schedule = 1 :: [] ∧
      namedRow.requests[1].payload = .call (.data 0x41) ∧ (Instr.data 0x41).isHostOp = false := by decide
theorem witness_EmitRecordsTheWrite : (lit false).inProgress = none ∧ (lit false).busAnswer 0 = .ok := by decide
theorem witness_EmitRecordsTheWrite_failed : (answering [.transportError] true).inProgress = none ∧
    (answering [.transportError] true).busAnswer 0 = .transportError := by decide
theorem witness_PauseAppendsItsWait : (lit true).inProgress = none ∧ (lit true).waitAnswer 0 = .elapsed ∧
    (waiting [] true).inProgress = none ∧ (waiting [] true).waitAnswer 0 = .notYet := by decide
theorem witness_StrobeAndNibbleTransaction : (lit true).inProgress = none ∧ (lit true).answersOk 2 2 ∧
    (lit true).answersOk 3 3 := by decide
theorem witness_LogicalBytePrimitives : (lit true).inProgress = none ∧ (lit true).answersOk 6 6 := by decide
theorem witness_ControllerBytesAreSentWhole : (lit false).inProgress = none ∧ (lit false).answersOk 6 6 := by decide
theorem witness_BusBytesAreOneWrite : (lit false).inProgress = none ∧ (lit false).answersOk 1 0 := by decide
/-- The last write of a logical byte fails. -/
theorem witness_FailedWriteInAPrimitive_abort :
    primEvents (answering [.ok, .ok, .ok, .ok, .ok, .transportError] true) (.send 0xFF true) =
        some (pulses [0xF9, 0xFD, 0xF9, 0xF9, 0xFD, 0xF9]) ∧
      (answering [.ok, .ok, .ok, .ok, .ok, .transportError] true).inProgress = none ∧
      (answering [.ok, .ok, .ok, .ok, .ok, .transportError] true).cfg.terrPolicy = .abort ∧
      pulses [0xF9, 0xFD, 0xF9, 0xF9, 0xFD, 0xF9] =
        (pulses [0xF9, 0xFD, 0xF9] ++ [.W 0xF9, .D 100, .W 0xFD, .D 500]) ++ .W 0xF9 :: [.D 100] ∧
      (answering [.ok, .ok, .ok, .ok, .ok, .transportError] true).answersOk
        (writeCount (pulses [0xF9, 0xFD, 0xF9] ++ [.W 0xF9, .D 100, .W 0xFD, .D 500]))
        (waitCount (pulses [0xF9, 0xFD, 0xF9] ++ [.W 0xF9, .D 100, .W 0xFD, .D 500])) ∧
      (answering [.ok, .ok, .ok, .ok, .ok, .transportError] true).busAnswer
        (writeCount (pulses [0xF9, 0xFD, 0xF9] ++ [.W 0xF9, .D 100, .W 0xFD, .D 500])) = .transportError := by decide
/-- The first and the last write of a nibble transaction fail, under continue. -/
def continuing : State :=
  { answering [.transportError, .ok, .transportError] false with
    cfg := { defaultConfig with terrPolicy := .continueOn } }
theorem witness_FailedWriteInAPrimitive_continue :
    primEvents continuing (.write4 0x4 true) = some (pulses [0x41, 0x45, 0x41]) ∧ continuing.inProgress = none ∧
      continuing.cfg.terrPolicy = .continueOn ∧ [false, true, false].length = writeCount (pulses [0x41, 0x45, 0x41]) ∧
      false ∈ [false, true, false] ∧
      continuing.answersAre [false, true, false] (waitCount (pulses [0x41, 0x45, 0x41])) := by decide
theorem witness_InitCompletes : (lit true).free ∧ (lit true).answersOk 48 49 := by decide
theorem witness_WriteCharCompletes : (lit true).free ∧ (lit true).answersOk 6 6 := by decide
/-- A text as long as TEXT_MAX allows. -/
def shortTexts : State := { lit false with cfg := { defaultConfig with textMax := some 1 } }
theorem witness_DisplayStringCompletes : shortTexts.free ∧
    (∀ m, shortTexts.cfg.textMax = some m → [0x41#8].length ≤ m) ∧ shortTexts.answersOk (6 * (1 + [0x41#8].length)) (6 * (1 + [0x41#8].length)) :=
  ⟨by decide, fun m h => by cases h; decide, by decide⟩
/-- The largest column of line 4 (R55). -/
theorem witness_DisplayStringAtCompletes : shortTexts.free ∧ lineBase .L4 + (0x2B#8).toNat ≤ 0x7F ∧
    (∀ m, shortTexts.cfg.textMax = some m → [0x41#8].length ≤ m) ∧ shortTexts.answersOk (6 * (1 + [0x41#8].length)) (6 * (1 + [0x41#8].length)) :=
  ⟨by decide, by decide, fun m h => by cases h; decide, by decide⟩
theorem witness_ClearCompletes : (lit true).free ∧ (lit true).answersOk 12 12 := by decide
theorem witness_BacklightCompletes : (lit true).free ∧ (lit true).answersOk 1 0 := by decide
theorem witness_LoadCustomCharsCompletes : (lit true).free ∧ [List.replicate 8 0x1F#8].length ≤ 8 ∧
    (∀ g ∈ [List.replicate 8 0x1F#8], g.length = 8) ∧
    (lit true).answersOk (6 * (1 + 8 * [List.replicate 8 0x1F#8].length))
      (6 * (1 + 8 * [List.replicate 8 0x1F#8].length)) := by decide
theorem witness_LoadCustomCharsCompletes_eight : (List.replicate 8 (List.replicate 8 0x1F#8)).length ≤ 8 ∧
    (∀ g ∈ List.replicate 8 (List.replicate 8 0x1F#8), g.length = 8) := by decide
theorem witness_ReservedOpsAreRefused : (lit true).free ∧ (Instr.reservedF = .reservedD ∨ Instr.reservedF = .reservedE ∨
    Instr.reservedF = .reservedF) ∧ 8 < (0x09#8).toNat ∧
    decodeRow .opw (0x06 :: 0x09 :: List.replicate 72 0) = .ok (.loadCustomChars (List.replicate 9 (List.replicate 8 0))) := by
  decide
/-- The first refused columns of each line, and of each operand its first value out of domain. -/
theorem witness_OperandsOutsideTheDomainAreRefused : shortTexts.free ∧ 0x7F < lineBase .L1 + (0x80#8).toNat ∧
    0x7F < lineBase .L2 + (0x40#8).toNat ∧ 0x7F < lineBase .L3 + (0x6C#8).toNat ∧
    0x7F < lineBase .L4 + (0x2C#8).toNat ∧ shortTexts.cfg.textMax = some 1 ∧ 1 < [0x41#8, 0x42#8].length ∧
    8 < (List.replicate 9 (List.replicate 8 0#8)).length ∧ (∃ g ∈ [List.replicate 7 0#8], g.length ≠ 8) := by decide
theorem witness_RequestToABusyEncoderIsHeld : Instr.clear.isHostOp = true ∧ Instr.clear.block = .dpe ∧
    ¬ ({ lit true with busy := true } : State).free := by decide
/-- The last write of clear() is answered so. -/
def lastAnswer (policy : TerrPolicy) (answer : BusAnswer) : State :=
  { answering (List.replicate 11 .ok ++ [answer]) false with cfg := { defaultConfig with terrPolicy := policy } }
def clearTrace : List DpeEvent := pulses [0x00, 0x04, 0x00, 0x10, 0x14, 0x10, 0x00, 0x04, 0x00, 0x20, 0x24, 0x20]
/-- The events of clear() before its last write. -/
def clearBefore : List DpeEvent := clearTrace.take 22
theorem witness_FailedWriteAbortsTheOperation :
    opEvents (lastAnswer .abort .transportError) .clear = some (clearBefore ++ .W 0x20 :: [.D 100]) ∧
      (lastAnswer .abort .transportError).free ∧ (lastAnswer .abort .transportError).cfg.terrPolicy = .abort ∧
      (lastAnswer .abort .transportError).answersOk (writeCount clearBefore) (waitCount clearBefore) ∧
      (lastAnswer .abort .transportError).busAnswer (writeCount clearBefore) = .transportError := by decide
theorem witness_FailedWriteUnderContinue :
    opEvents (lastAnswer .continueOn .transportError) .clear = some clearTrace ∧
      (lastAnswer .continueOn .transportError).free ∧
      (lastAnswer .continueOn .transportError).cfg.terrPolicy = .continueOn ∧
      (List.replicate 11 true ++ [false]).length = writeCount clearTrace ∧
      false ∈ List.replicate 11 true ++ [false] ∧
      (lastAnswer .continueOn .transportError).answersAre (List.replicate 11 true ++ [false])
        (waitCount clearTrace) := by decide
/-- The last write of clear() is not answered, the writes before it ok. -/
theorem witness_UnansweredWriteKeepsTheLock_write :
    opEvents (lastAnswer .abort .notYet) .clear = some (clearBefore ++ .W 0x20 :: [.D 100]) ∧
      (lastAnswer .abort .notYet).free ∧ (List.replicate 11 true).length = writeCount clearBefore ∧
      (lastAnswer .abort .notYet).goesOnAfter (List.replicate 11 true) ∧
      (lastAnswer .abort .notYet).answersAre (List.replicate 11 true) (waitCount clearBefore) ∧
      (lastAnswer .abort .notYet).stallsAt (.W 0x20) (writeCount clearBefore) (waitCount clearBefore) :=
  ⟨by decide, by decide, by decide, .inr (by decide), by decide, rfl⟩
/-- The first write fails under continue, and the wait behind it does not end. -/
def failedThenWaits : State :=
  { waiting [] false with
    bus := ⟨[.transportError], .ok, [], .notYet⟩, cfg := { defaultConfig with terrPolicy := .continueOn } }
theorem witness_UnansweredWriteKeepsTheLock_wait :
    opEvents failedThenWaits (.writeChar 0x41) =
        some ([.W 0x41] ++ .D 100 :: (pulses [0x41, 0x45, 0x41, 0x11, 0x15, 0x11]).drop 2) ∧
      failedThenWaits.free ∧ [false].length = writeCount [.W 0x41] ∧ failedThenWaits.goesOnAfter [false] ∧
      failedThenWaits.answersAre [false] (waitCount [.W 0x41]) ∧
      failedThenWaits.stallsAt (.D 100) (writeCount [.W 0x41]) (waitCount [.W 0x41]) :=
  ⟨by decide, by decide, by decide, .inl rfl, by decide, rfl⟩
theorem witness_UnansweredWriteKeepsTheLock_ending : (next? (exec .init (answering [.notYet] false))).map
    (fun s => s.inProgress.map InProgress.ending) = some (some .init) ∧
    (next? (exec (.backlight true) (answering [.notYet] false))).map
      (fun s => s.inProgress.map InProgress.ending) = some (some (.backlight true)) := by decide
/-- An operation of requester 7 with a write and a wait still to come, in which a write may have failed. -/
def resumable (e : Ending) (failed : Bool) : State :=
  { lit true with busy := true, terrSeen := failed, inProgress := some ⟨[.write 0x08, .wait 100], failed, e, 7⟩ }
/-- The same for init(), with a request to the DPE held and the schedule naming the operation in progress. -/
def resumed (policy : TerrPolicy) (bus : BusPort) : State :=
  { resumable .init false with
    bus := bus, schedule := [0], requests := [⟨5, .call .clear⟩]
    cfg := { defaultConfig with terrPolicy := policy } }
theorem witness_ResumedOperationEnds : (resumable (.backlight false) false).resetAsserted = false ∧
    (resumable (.backlight false) false).requests = [] ∧
    (resumable (.backlight false) false).inProgress = some ⟨[.write 0x08, .wait 100], false, .backlight false, 7⟩ ∧
    Ending.backlight false ≠ .primitive ∧
    [true].length = writeCount ([Machine.Action.write 0x08, .wait 100].map Machine.Action.event) ∧
    false ∉ [true] ∧ (resumable (.backlight false) false).answersAre [true]
      (waitCount ([Machine.Action.write 0x08, .wait 100].map Machine.Action.event)) := by decide
/-- A write that fails in a resumed operation, under each policy, while another request is held. -/
theorem witness_ResumedOperationEnds_failed :
    (resumed .continueOn ⟨[.transportError], .ok, [], .elapsed⟩).schedule.head? = some 0 ∧
    (resumed .continueOn ⟨[.transportError], .ok, [], .elapsed⟩).cfg.terrPolicy = .continueOn ∧
    (resumed .continueOn ⟨[.transportError], .ok, [], .elapsed⟩).answersAre [false]
      (waitCount ([Machine.Action.write 0x08, .wait 100].map Machine.Action.event)) ∧
    (resumed .abort ⟨[.transportError], .ok, [], .elapsed⟩).schedule.head? = some 0 ∧
    (resumed .abort ⟨[.transportError], .ok, [], .elapsed⟩).cfg.terrPolicy = .abort ∧
    [Machine.Action.write 0x08, .wait 100].map Machine.Action.event = [] ++ .W 0x08 :: [.D 100] ∧
    (resumed .abort ⟨[.transportError], .ok, [], .elapsed⟩).answersOk (writeCount []) (waitCount []) ∧
    (resumed .abort ⟨[.transportError], .ok, [], .elapsed⟩).busAnswer (writeCount []) = .transportError := by decide
theorem test_resumed_write_fails : (next? (step (resumed .abort ⟨[.transportError], .ok, [], .elapsed⟩))).map
    (fun t => (t.dpeTrace, t.dpeResponses, [t.initDone, t.terrSeen, t.busy])) =
    some ([.WF 0x08], [⟨7, .transportError⟩], [false, true, false]) := by decide
/-- The write is again not answered; the wait behind it does not end. -/
theorem witness_ResumedOperationWaitsOn :
    (resumed .abort ⟨[], .notYet, [], .elapsed⟩).resetAsserted = false ∧
    (resumed .abort ⟨[], .notYet, [], .elapsed⟩).schedule.head? = some 0 ∧
    (resumed .abort ⟨[], .notYet, [], .elapsed⟩).stallsAt (.W 0x08) (writeCount []) (waitCount []) ∧
    [Machine.Action.write 0x08, .wait 100].map Machine.Action.event = [] ++ .W 0x08 :: [.D 100] ∧
    [Machine.Action.write 0x08, .wait 100].map Machine.Action.event = [.W 0x08] ++ .D 100 :: [] ∧
    (resumed .abort ⟨[], .ok, [], .notYet⟩).goesOnAfter [true] ∧
    (resumed .abort ⟨[], .ok, [], .notYet⟩).answersAre [true] (waitCount [.W 0x08]) ∧
    (resumed .abort ⟨[], .ok, [], .notYet⟩).stallsAt (.D 100) (writeCount [.W 0x08]) (waitCount [.W 0x08]) :=
  ⟨rfl, rfl, rfl, rfl, rfl, .inr (by decide), by decide, rfl⟩
theorem witness_WhoWritesTheStatusBits : (lit false).inProgress = none ∧
    (next? (exec (.backlight true) (lit false))).map State.backlightOn = some true ∧
    (next? (exec .init (lit false))).map State.initDone = some true ∧
    (next? (exec (.emit 0) (answering [.transportError] false))).map State.terrSeen = some true := by decide
theorem witness_StatusBitsAreSticky :
    (next? (step { lit false with initDone := true, terrSeen := true, requests := [⟨0, .call .init⟩] })).map
      (fun t => (t.initDone, t.terrSeen)) = some (true, true) := by decide
theorem witness_EveryByteCarriesTheBacklightBit : (lit true).cfg.masksOk = true ∧ (lit true).inProgress = none ∧
    (∀ on, Instr.clear ≠ .backlight on) ∧ (∀ on, Instr.clear ≠ .rawBacklight on) ∧
    (∀ d b e w r, Instr.clear ≠ .busByte d b e w r) ∧ (∀ b, Instr.clear ≠ .emit b) ∧
    (∃ t, exec .clear (lit true) = .next t) :=
  ⟨by decide, by decide, nofun, nofun, nofun, nofun, ⟨_, rfl⟩⟩
theorem witness_DisplayStringIsColumnZero : (lit true).free := by decide
theorem witness_TraceReaderInvertsTheFraming : defaultConfig.masksOk = true := by decide
theorem witness_OperationSizes : opEvents (lit false) .clear = some clearTrace ∧ (lit false).free ∧
    (lit false).answersOk (writeCount clearTrace) (waitCount clearTrace) := by decide
theorem witness_FaultCodeIsMaskedByTheFaultBit : (0x00010007#32).getLsbD 16 = true ∧
    (0x00000007#32).getLsbD 16 = false := by decide
/-- Words that differ in every bit outside the field of the clause. -/
theorem witness_FrameFieldsAreIndependent :
    (0x0000FFF0#32).extractLsb' 4 12 = (0xFFFFFFFF#32).extractLsb' 4 12 ∧
    (0xFFFC0000#32).extractLsb' 18 14 = (0xFFFFFFFF#32).extractLsb' 18 14 ∧
    (0x00010007#32).getLsbD 16 = (0xFFFFFFFF#32).getLsbD 16 ∧
    (0x00010007#32).extractLsb' 0 3 = (0xFFFFFFFF#32).extractLsb' 0 3 := by decide
theorem witness_ReadFrameCompletes : (frameAnswer (.frame 0xFF 0xFF 0xFF 0xFF)).transferAnswer = .frame 0xFF 0xFF 0xFF 0xFF ∧
    (frameAnswer .transportError).transferAnswer = .transportError := by decide
theorem witness_GetTemperatureCompletes : (frameAnswer (.frame 0 1 0 1)).transferAnswer = .frame 0 1 0 1 ∧
    (decodeFrame .formula (assembleBytes 0 1 0 1)).faultCode ≠ 0 ∧
    ¬ (decodeFrame .formula (assembleBytes 0 1 0 0)).faultCode ≠ 0 ∧
    (frameAnswer .transportError).transferAnswer = .transportError := by decide
theorem witness_UnansweredTransferStaysOutstanding : (Instr.getTemperature = .readFrame ∨
    Instr.getTemperature = .getTemperature) ∧ (frameAnswer .notYet).transferAnswer = .notYet := by decide
theorem witness_DecodeInvertsTheEncoders : representable .formula 11 (-2047) = true ∧
    representable .twosComplement 11 (-2048) = true ∧ representable .formula 13 8191 = true ∧
    representable .twosComplement 13 (-8192) = true := by decide
theorem witness_ResetDiscardsTheOperationInProgress :
    ({ resumable .init true with resetAsserted := true } : State).resetAsserted = true := by decide
def oneRequest : State :=
  { lit true with requests := [⟨3, .encoded .opw [0x01, 0x41]⟩, ⟨4, .call .readFrame⟩], schedule := [0] }
theorem witness_StepRunsTheDecodedInstruction : oneRequest.resetAsserted = false ∧ oneRequest.free ∧
    oneRequest.requests = ⟨3, .encoded .opw [0x01, 0x41]⟩ :: [⟨4, .call .readFrame⟩] ∧
    (oneRequest.schedule.head? = some 0 ∨ ([⟨4, .call .readFrame⟩] : List Request) = []) ∧
    decodeRow .opw [0x01, 0x41] = .ok (.writeChar 0x41) ∧
    decodeTableWord 8 0xFF = some (.setDdramByte 0x7F) := by decide
/-- The last held request is chosen, on a free DPE. -/
theorem witness_AnyHeldRequestMayBeGranted :
    1 < ({ oneRequest with schedule := [1] } : State).requests.length ∧
      ({ oneRequest with schedule := [1] } : State).resetAsserted = false ∧
      ({ oneRequest with schedule := [1] } : State).free ∧
      ({ oneRequest with schedule := [1] } : State).schedule = 1 :: [] ∧
      (match (Payload.call .readFrame).fetch with | .ok i => i == .readFrame | .error _ => false) = true := by decide
/-- Three requests are held while an operation is in progress; the second request to the TFD is chosen: number 2 of
the moves, behind going on with the operation and the first request to the TFD. -/
def busyWithReads : State :=
  { resumable .plain false with
    requests := [⟨4, .call .readFrame⟩, ⟨5, .call .clear⟩, ⟨6, .encoded .opw [0x09]⟩], schedule := [2] }
theorem witness_AnyHeldRequestMayBeGranted_busy : ∃ h : 2 < busyWithReads.requests.length,
    busyWithReads.resetAsserted = false ∧ ¬ busyWithReads.free ∧ busyWithReads.requests[2].payload.block = .tfd ∧
      busyWithReads.schedule = ((busyWithReads.requests.take 2).countP (fun r => r.payload.block == .tfd)
        + if busyWithReads.inProgress.isSome then 1 else 0) :: [] ∧
      (match busyWithReads.requests[2].payload.fetch with
        | .ok i => i == .getTemperature | .error _ => false) = true := by decide
theorem witness_AnyHeldRequestMayBeGranted_runs : (next? (step busyWithReads)).map
    (fun t => (t.requests, t.busy, t.tfdResponses)) =
    some ([⟨4, .call .readFrame⟩, ⟨5, .call .clear⟩], true, [⟨6, .temperature ⟨0, 2⟩⟩]) := by decide
def busyWithRequest : State := { resumable .plain false with requests := [⟨5, .call .clear⟩] }
/-- Two equal requests are held. -/
theorem witness_RequestsStayHeldWhileBusy_equal :
    (next? (step { busyWithRequest with requests := [⟨5, .call .clear⟩, ⟨5, .call .clear⟩], schedule := [0] })).map
      (fun t => (t.requests, t.dpeResponses)) =
    some ([⟨5, .call .clear⟩, ⟨5, .call .clear⟩], [⟨7, .ok⟩]) := by decide
theorem witness_RequestsStayHeldWhileBusy : busyWithRequest.busy = true ∧ busyWithRequest.resetAsserted = false ∧
    (next? (step busyWithRequest)).map (fun t => (t.busy, t.requests)) = some (false, [⟨5, .call .clear⟩]) ∧
    (Payload.call .clear).block = .dpe := by decide
theorem witness_IdleWithoutRequests : State.reset.resetAsserted = false ∧ State.reset.inProgress = none ∧
    State.reset.requests = [] := by decide
theorem witness_BlocksDoNotInteract : (next? (exec .clear (lit true))).isSome = true ∧ Instr.clear.block = .dpe ∧
    (next? (exec .readFrame (lit true))).isSome = true ∧ Instr.readFrame.block = .tfd := by decide
theorem witness_NoConditionStopsTheMachine : ∀ r ∈ oneRequest.requests, ∃ i, r.payload.fetch = .ok i := by
  intro r hr
  simp only [oneRequest, List.mem_cons, List.not_mem_nil, or_false] at hr
  rcases hr with rfl | rfl <;> exact ⟨_, rfl⟩
/-- Each of the four ways: an end, a TFD answer, a held request, a hang with the lock. -/
theorem witness_EveryOperationEndsWithOneResult :
    Instr.clear.isHostOp = true ∧ (next? (exec .clear (lit true))).map State.dpeResponses = some [⟨0, .ok⟩] ∧
      Instr.readFrame.isHostOp = true ∧
      (next? (exec .readFrame (lit true))).map State.tfdResponses = some [⟨0, .readResult ⟨0, 0, 0⟩⟩] ∧
      (next? (exec .clear busyWithRequest)).map (fun t => t.requests.length) = some 2 ∧
      (next? (exec .clear (lastAnswer .abort .notYet))).map State.busy = some true := by decide
theorem witness_StepsOnlyAppend : (next? (step oneRequest)).map (fun t => (t.dpeTrace.length, t.dpeResponses)) =
    some (12, [⟨3, .ok⟩]) := by decide
/-- A state in which the invariant holds while an operation is in progress: writeChar(0x41) on a bus that has
answered its first write only. -/
def midway : State :=
  { lit false with
    busy := true
    dpeTrace := [.W 0x41, .D 100]
    inProgress := some ⟨[.write 0x45, .wait 500, .write 0x41, .wait 100, .write 0x11, .wait 100, .write 0x15, .wait 500,
      .write 0x11, .wait 100], false, .plain, 0⟩
    requests := [⟨1, .call .clear⟩] }
theorem witness_InvariantKeptByEveryStep : midway.Inv ∧ (next? (step { midway with schedule := [0] })).map
    (fun t => (t.busy, t.dpeTrace.length)) = some (false, 12) := by
  refine ⟨⟨?_, ⟨⟨fun _ => ⟨_, rfl⟩, fun _ => rfl⟩, ?_⟩, ?_⟩, by decide⟩
  · intro r hr
    simp only [midway, List.mem_singleton] at hr
    subst hr; rfl
  · intro p hp
    cases hp
    exact ⟨nofun, nofun⟩
  · exact fun _ => ⟨[.byte 0x41 true], by decide, by decide⟩
theorem witness_reset_satisfies_masks : State.reset.cfg.masksOk = true := by decide

end Sys2Proof.Tests
end

section
/-! PROOFS of the family 00_scope: the two blocks share no state (R3). Each shared operation is given the frame
it leaves to the other block; exec_shape carries the two frames to every instruction. -/

namespace Sys2Proof.Machine

/-- What of the TFD an instruction of the DPE may not touch: its answers, its trace and its port (R3, R21). -/
def State.SameTfd (s t : State) : Prop :=
  t.transferAnswers = s.transferAnswers ∧ t.tfdTrace = s.tfdTrace ∧ t.tfdResponses = s.tfdResponses

/-- What of the DPE an instruction of the TFD may not touch: the four bits and the operation in progress
(R14 to R18), its answers, its trace and its port (R3). -/
def State.SameDpe (s t : State) : Prop :=
  t.backlightOn = s.backlightOn ∧ t.busy = s.busy ∧ t.initDone = s.initDone ∧ t.terrSeen = s.terrSeen ∧
    t.inProgress = s.inProgress ∧ t.bus = s.bus ∧ t.dpeTrace = s.dpeTrace ∧ t.dpeResponses = s.dpeResponses

/-- An operation of the DPE, whether held, refused or driven, leaves the TFD alone. -/
theorem dpeOperation_sameTfd (i : Instr) (valid : Bool) (body : List Action) (e : Ending) (s t : State)
    (h : dpeOperation i valid body e s = .next t) : s.SameTfd t := by
  rcases dpeOperation_cases i valid body e s t h with ⟨-, rfl⟩ | ⟨-, -, rfl⟩ | ⟨-, -, rfl⟩
  · exact ⟨rfl, rfl, rfl⟩
  · exact ⟨rfl, rfl, rfl⟩
  · exact ⟨by simp, by simp, by simp⟩

theorem primitive_sameTfd (actions : List Action) (s t : State) (h : primitive actions s = .next t) :
    s.SameTfd t := by
  cases h
  exact ⟨by simp, by simp, by simp⟩

/-- A transfer, whether answered or left outstanding, leaves the DPE alone. -/
theorem tfdTransfer_sameDpe (i : Instr) (result : ReadResult → Result) (s t : State)
    (h : tfdTransfer i result s = .next t) : s.SameDpe t := by
  rcases tfdTransfer_cases i result s t h with ⟨_, _, rfl⟩ | rfl
  · exact ⟨rfl, rfl, rfl, rfl, rfl, rfl, rfl, rfl⟩
  · exact ⟨rfl, rfl, rfl, rfl, rfl, rfl, rfl, rfl⟩

theorem tfdAnswer_sameDpe (r : Result) (s t : State) (h : tfdAnswer r s = .next t) : s.SameDpe t := by
  cases h
  exact ⟨rfl, rfl, rfl, rfl, rfl, rfl, rfl, rfl⟩

/-- Any instruction of the DPE leaves the TFD alone. -/
theorem exec_sameTfd (i : Instr) (s t : State) (hb : i.block = .dpe) (h : exec i s = .next t) : s.SameTfd t := by
  rcases exec_shape i s with ⟨_, _, hx, _⟩ | ⟨_, hx, _⟩ | ⟨_, _, htfd, _⟩ | ⟨_, _, htfd⟩
  · exact dpeOperation_sameTfd _ _ _ _ _ _ (hx ▸ h)
  · exact primitive_sameTfd _ _ _ (hx ▸ h)
  · simp [hb] at htfd
  · simp [hb] at htfd

/-- Any instruction of the TFD leaves the DPE alone. -/
theorem exec_sameDpe (i : Instr) (s t : State) (hb : i.block = .tfd) (h : exec i s = .next t) : s.SameDpe t := by
  rcases exec_shape i s with ⟨_, _, _, hdpe, _⟩ | ⟨_, _, hdpe, _⟩ | ⟨_, hx, _⟩ | ⟨_, hx, _⟩
  · simp [hb] at hdpe
  · simp [hb] at hdpe
  · exact tfdTransfer_sameDpe _ _ _ _ (hx ▸ h)
  · exact tfdAnswer_sameDpe _ _ _ (hx ▸ h)

/-- Settles O54: the frames of the two kinds of instruction, exec_sameTfd and exec_sameDpe. -/
theorem blocksDoNotInteract : Obligations.BlocksDoNotInteract := by
  intro i s t h
  exact ⟨fun hb => exec_sameTfd i s t hb h, fun hb => exec_sameDpe i s t hb h⟩

end Sys2Proof.Machine
end

section
/-! PROOFS of the family 10_state: what reset leaves (R28), who writes the status bits (R15, R17, R18), and the
invariant of the machine (R16, R36, R80, R151). The invariant is kept because a drive moves events from what is
planned to the trace and leaves the list of both as it was, and because an accepted operation plans whole units
from the backlight bit of its acceptance on. -/

namespace Sys2Proof.Machine

/-! ## The status bits -/

theorem eq_init_of_endingOf {i : Instr} (h : endingOf i = .init) : i = .init := by
  cases i <;> simp_all [endingOf]

theorem eq_backlight_of_endingOf {i : Instr} {on : Bool} (h : endingOf i = .backlight on) : i = .backlight on := by
  cases i <;> simp_all [endingOf]

/-- What the end e allows to be written into the status bits: backlight(on) its operand into backlightOn, init() a
1 into init_done, any a 1 into terr_seen (R15, R17, R18). -/
def State.BitsWritten (e : Ending) (s t : State) : Prop :=
  (t.backlightOn = s.backlightOn ∨ ∃ on, e = .backlight on ∧ t.backlightOn = on) ∧
  (t.initDone = s.initDone ∨ e = .init ∧ t.initDone = true) ∧
  (t.terrSeen = s.terrSeen ∨ t.terrSeen = true)

theorem State.SameDpe.bitsWritten {s t : State} (h : s.SameDpe t) (e : Ending) : State.BitsWritten e s t := by
  obtain ⟨hlight, -, hinit, hterr, -⟩ := h
  exact ⟨.inl hlight, .inl hinit, .inl hterr⟩

theorem dpeOperation_bitsWritten (i : Instr) (valid : Bool) (body : List Action) (e : Ending) (s t : State)
    (h : dpeOperation i valid body e s = .next t) : State.BitsWritten e s t := by
  rcases dpeOperation_cases i valid body e s t h with ⟨-, rfl⟩ | ⟨-, -, rfl⟩ | ⟨-, -, rfl⟩
  · exact ⟨.inl rfl, .inl rfl, .inl rfl⟩
  · exact ⟨.inl rfl, .inl rfl, .inl rfl⟩
  · exact (s.accept body e).drive_bits _ rfl

/-- A primitive on its own has no end that writes a bit. -/
theorem primitive_bitsWritten (actions : List Action) (e : Ending) (s t : State) (hidle : s.inProgress = none)
    (h : primitive actions s = .next t) : State.BitsWritten e s t := by
  cases h
  obtain ⟨hlight, hinit, hterr⟩ :=
    (s.enqueue actions).drive_bits ⟨actions, false, .primitive, s.caller⟩ (by simp [hidle])
  exact ⟨.inl (by simpa using hlight), .inl (by simpa using hinit), hterr⟩

theorem exec_bitsWritten (i : Instr) (s t : State) (hidle : s.inProgress = none) (h : exec i s = .next t) :
    State.BitsWritten (endingOf i) s t := by
  rcases exec_shape i s with ⟨_, _, hx, -⟩ | ⟨actions, hx, -⟩ | ⟨_, -, htfd, -⟩ | ⟨_, -, htfd⟩
  · exact dpeOperation_bitsWritten _ _ _ _ s t (hx ▸ h)
  · exact primitive_bitsWritten actions _ s t hidle (hx ▸ h)
  · exact (exec_sameDpe i s t htfd h).bitsWritten _
  · exact (exec_sameDpe i s t htfd h).bitsWritten _

/-- Settles O28: exec_bitsWritten, read for the bits that have changed. -/
theorem whoWritesTheStatusBits : Obligations.WhoWritesTheStatusBits := by
  intro i s t hidle h
  obtain ⟨hlight, hinit, hterr⟩ := exec_bitsWritten i s t hidle h
  refine ⟨fun hne => ?_, fun hne => ?_, hterr.resolve_left⟩
  · obtain ⟨on, he, hon⟩ := hlight.resolve_left hne
    exact ⟨on, eq_backlight_of_endingOf he, hon⟩
  · obtain ⟨he, hone⟩ := hinit.resolve_left hne
    exact ⟨eq_init_of_endingOf he, hone⟩

/-- The two sticky bits stay 1 once they are 1 (R17, R18). -/
def State.KeepsSticky (s t : State) : Prop :=
  (s.initDone = true → t.initDone = true) ∧ (s.terrSeen = true → t.terrSeen = true)

theorem State.BitsWritten.keepsSticky {e : Ending} {s t : State} (h : State.BitsWritten e s t) :
    s.KeepsSticky t := by
  obtain ⟨-, hinit, hterr⟩ := h
  exact ⟨fun hs => hinit.elim (·.trans hs) And.right, fun hs => hterr.elim (·.trans hs) id⟩

theorem State.drive_keepsSticky (s : State) : s.KeepsSticky s.drive := by
  cases hp : s.inProgress with
  | none => rw [s.drive_idle hp]; exact ⟨id, id⟩
  | some p => exact BitsWritten.keepsSticky (s.drive_bits p hp)

/-- A granted instruction finds nothing in progress or is the TFD's (R131, R135). -/
theorem granted_idle_or_tfd {s : State} {r : Request} {rest : List Request} {i : Instr}
    (hg : (r, rest) ∈ grants s.dpeIdle s.requests) (hf : r.payload.fetch = .ok i) :
    s.inProgress = none ∨ i.block = .tfd := by
  obtain ⟨-, -, hidle | htfd⟩ := grants_mem _ _ _ _ hg
  · exact .inl (s.dpeIdle_iff.mp hidle).2
  · exact .inr ((r.payload.fetch_block i hf).trans htfd)

/-- Settles O29: a drive keeps the two bits, and so does a granted instruction, of either block. -/
theorem statusBitsAreSticky : Obligations.StatusBitsAreSticky := by
  intro s t hr h
  rcases step_cases s t h with ⟨hreset, -⟩ | ⟨-, -, rfl⟩ | ⟨-, -, ks, n, rfl⟩ |
    ⟨-, ks, n, r, rest, i, hg, hf, hx⟩
  · simp [hr] at hreset
  · exact ⟨id, id⟩
  · exact (s.chosen ks n).drive_keepsSticky
  · rcases granted_idle_or_tfd hg hf with hidle | htfd
    · exact (exec_bitsWritten i ((s.chosen ks n).serve rest r.caller) t hidle hx).keepsSticky
    · exact ((exec_sameDpe i ((s.chosen ks n).serve rest r.caller) t htfd hx).bitsWritten .plain).keepsSticky

/-! ## The lock -/

theorem State.LockInv.of_free {s : State} (h : s.free) : s.LockInv := by
  obtain ⟨hbusy, hnone⟩ := h
  simp [State.LockInv, hbusy, hnone]

theorem State.LockInv.accept (s : State) (body : List Action) (i : Instr) :
    (s.accept body (endingOf i)).LockInv := by
  simp [State.LockInv, endingOf_ne_primitive]

/-- A drive releases the lock with the operation, or keeps both; a write that fails in it sets terr_seen (R71). -/
theorem State.LockInv.drive {s : State} (h : s.LockInv) : s.drive.LockInv := by
  cases hp : s.inProgress with
  | none => rwa [s.drive_idle hp]
  | some p =>
    obtain ⟨hlock, hop⟩ := h
    obtain ⟨hending, hfailed⟩ := hop p hp
    cases hl : (run s.cfg.terrPolicy p.todo s.bus).left with
    | some todo =>
      rw [s.drive_left p todo hp hl]
      have hbusy : s.busy = true := hlock.mpr ⟨p, hp⟩
      refine ⟨by simp [State.record, hbusy], ?_⟩
      rintro _ ⟨rfl⟩
      refine ⟨hending, fun hf => ?_⟩
      rcases Bool.or_eq_true_iff.mp hf with hf | hf <;> simp [State.record, hf, hfailed]
    | none =>
      rw [s.drive_ended p hp hl, State.finish_operation _ _ _ hending]
      exact .of_free ⟨rfl, rfl⟩

/-! ## The trace -/

theorem State.planned_idle {s : State} (h : s.inProgress = none) : s.planned = [] := by
  simp [State.planned, h]

theorem State.planned_inProgress {s : State} {p : InProgress} (h : s.inProgress = some p) :
    s.planned = p.todo.map Action.event := by
  simp [State.planned, h]

theorem State.plannedLight_idle {s : State} (h : s.inProgress = none) : s.plannedLight = s.backlightOn := by
  simp [State.plannedLight, h]

theorem State.plannedLight_inProgress {s : State} {p : InProgress} (h : s.inProgress = some p) :
    s.plannedLight = p.ending.lightAfter s.backlightOn := by
  obtain ⟨todo, failed, ending, caller⟩ := p
  cases ending <;> simp [State.plannedLight, h, Ending.lightAfter, Ending.light]

/-- With no operation in progress and nothing issued since reset there is no unit. -/
theorem State.TraceInv.of_reset {s : State} (htrace : s.dpeTrace = []) (hidle : s.inProgress = none)
    (hlight : s.backlightOn = s.cfg.blReset) : s.TraceInv :=
  fun _ => ⟨[], by simp [htrace, planned_idle hidle, unitTrace],
    by simp [plannedLight_idle hidle, hlight, unitLight]⟩

/-- A drive in which no write has failed, now or before, moves events from the plan to the trace, and the
backlight bit to come is the one that was to come. -/
theorem State.drive_planned {s : State} (h : s.LockInv) (hterr : s.drive.terrSeen = false) :
    s.drive.dpeTrace ++ s.drive.planned = s.dpeTrace ++ s.planned ∧ s.drive.plannedLight = s.plannedLight := by
  cases hp : s.inProgress with
  | none => rw [s.drive_idle hp]; exact ⟨rfl, rfl⟩
  | some p =>
    obtain ⟨hending, hfailed⟩ := h.2 p hp
    have hrun := run_unfailed s.cfg.terrPolicy p.todo s.bus
    rw [planned_inProgress hp, plannedLight_inProgress hp]
    cases hl : (run s.cfg.terrPolicy p.todo s.bus).left with
    | some todo =>
      rw [s.drive_left p todo hp hl] at hterr ⊢
      obtain ⟨-, hrf⟩ := Bool.or_eq_false_iff.mp hterr
      rw [planned_inProgress rfl, plannedLight_inProgress rfl, ← hrun hrf, hl]
      simp [State.record]
    | none =>
      rw [s.drive_ended p hp hl] at hterr ⊢
      obtain ⟨hs, hrf⟩ := Bool.or_eq_false_iff.mp ((finish_terrSeen ..).symm.trans hterr)
      have hpf : p.failed = false := by
        by_contra hf
        simp [hfailed (by simpa using hf)] at hs
      rw [planned_idle (finish_inProgress ..), plannedLight_idle (finish_inProgress ..), ← hrun hrf, hl,
        State.finish_operation _ _ _ hending]
      simp [State.record, hpf, hrf, Ending.lightAfter]

theorem State.TraceInv.drive {s : State} (hlock : s.LockInv) (h : s.TraceInv) : s.drive.TraceInv := by
  intro hterr
  have hs : s.terrSeen = false := by
    by_contra hc
    simp [s.drive_keepsSticky.2 (by simpa using hc)] at hterr
  obtain ⟨htrace, hlight⟩ := drive_planned hlock hterr
  rw [htrace, hlight, drive_cfg]
  exact h hs

/-- An accepted operation plans whole units, the first from the backlight bit the trace has come to (R80, R151). -/
theorem State.TraceInv.accept {s : State} {i : Instr} {body : List Action} (hidle : s.inProgress = none)
    (h : s.TraceInv) (hevents : opEvents s i = some (body.map Action.event)) :
    (s.accept body (endingOf i)).TraceInv := by
  intro hterr
  obtain ⟨us, htrace, hlight⟩ := h hterr
  obtain ⟨vs, hbody, hafter⟩ := opEvents_units s i _ hevents
  rw [planned_idle hidle, List.append_nil] at htrace
  rw [plannedLight_idle hidle] at hlight
  refine ⟨us ++ vs, ?_, ?_⟩
  · rw [planned_inProgress rfl, accept_cfg, unitTrace_append, hlight, ← htrace, ← hbody]; rfl
  · rw [plannedLight_inProgress rfl, accept_cfg, unitLight_append, hlight, hafter]; rfl

/-! ## The invariant -/

/-- An operation of the DPE whose operands are in their domain issues its events; every other is refused. -/
theorem exec_operation (i : Instr) (s : State) (hblock : i.block = .dpe) (hhost : i.isHostOp = true) :
    ∃ valid body, exec i s = dpeOperation i valid body (endingOf i) s ∧
      (valid = true → opEvents s i = some (body.map Action.event)) := by
  cases i
  case init | writeChar | clear | backlight =>
    exact ⟨_, _, rfl, fun _ => rfl⟩
  case displayString text line =>
    refine ⟨_, _, rfl, fun hv => ?_⟩
    rw [textBody_events _ _ _ (by have := lineBase_le line; omega)]
    simp [opEvents, hv]
  case displayStringAt text line col =>
    refine ⟨_, _, rfl, fun hv => ?_⟩
    obtain ⟨haddr, htext⟩ := Bool.and_eq_true_iff.mp hv
    have haddr := (addrOk_iff line col).mp haddr
    rw [textBody_events _ _ (ddramAddr line col) haddr]
    simp [opEvents, haddr, htext, ddramAddr]
  case loadCustomChars glyphs =>
    refine ⟨_, _, rfl, fun hv => ?_⟩
    rw [glyphBody_events]
    exact if_pos ((glyphsOk_iff glyphs).mp hv)
  case reserved7 => exact ⟨false, _, rfl, nofun⟩
  all_goals simp [Instr.block, Instr.isHostOp] at hblock hhost

/-- What a host operation word decodes to is a host operation (R58). -/
theorem decodeOp_isHostOp (op : BitVec 4) (beside : List Byte) (i : Instr) (h : decodeOp op beside = .ok i) :
    i.isHostOp = true := by
  unfold decodeOp at h
  split at h
  case h_17 => cases h
  case h_3 | h_4 | h_6 | h_7 =>
    simp only [bind, Except.bind, pure, Except.pure] at h
    repeat' split at h
    all_goals cases h <;> rfl
  all_goals cases h; rfl

theorem decodeOpw_isHostOp (bytes : List Byte) (i : Instr) (h : decodeOpw bytes = .ok i) : i.isHostOp = true := by
  cases bytes with
  | nil => cases h
  | cons op beside =>
    simp only [decodeOpw, bind, Except.bind] at h
    split at h
    · cases h
    · exact decodeOp_isHostOp _ _ _ h

/-- What a request of a host carries is a host operation (R24, R26). -/
theorem Payload.fetch_isHostOp {p : Payload} {i : Instr} (hp : p.fromHost = true) (h : p.fetch = .ok i) :
    i.isHostOp = true := by
  cases p with
  | call j =>
    have hj : j.isHostOp = true := hp
    rw [Payload.fetch_call j hj] at h
    cases h
    exact hj
  | encoded f bytes =>
    obtain rfl : f = .opw := by simpa [Payload.fromHost] using hp
    simp only [Payload.fetch, decodeRow] at h
    split at h
    · next hd => cases h; exact decodeOpw_isHostOp _ _ hd
    · cases h

theorem State.hostOnly_hold {s : State} {i : Instr} (h : s.hostOnly) (hi : i.isHostOp = true) :
    (s.hold i).hostOnly := by
  intro r hr
  rcases List.mem_append.mp hr with hr | hr
  · exact h r hr
  · obtain rfl := List.mem_singleton.mp hr; exact hi

theorem State.Inv.drive {s : State} (h : s.Inv) : s.drive.Inv := by
  obtain ⟨hhost, hlock, htrace⟩ := h
  exact ⟨fun r hr => hhost r (by simpa using hr), hlock.drive, htrace.drive hlock⟩

/-- A host operation, whatever becomes of it, keeps the invariant: a held or refused one and one of the TFD write
nothing the lock and the trace speak of, an accepted one is driven from a state in which it holds. -/
theorem exec_inv {i : Instr} {s t : State} (hi : i.isHostOp = true) (h : s.Inv) (hx : exec i s = .next t) :
    t.Inv := by
  obtain ⟨hhost, hlock, htrace⟩ := h
  rcases exec_shape i s with ⟨-, -, -, hdpe, -⟩ | ⟨-, -, -, hprim⟩ | ⟨result, hr, -⟩ | ⟨result, hr, -⟩
  · obtain ⟨valid, body, ho, hevents⟩ := exec_operation i s hdpe hi
    rcases dpeOperation_cases _ _ _ _ _ _ (ho ▸ hx) with ⟨-, rfl⟩ | ⟨-, -, rfl⟩ | ⟨hfree, hvalid, rfl⟩
    · exact ⟨State.hostOnly_hold hhost hi, hlock, htrace⟩
    · exact ⟨hhost, hlock, htrace⟩
    · have haccept : (s.accept body (endingOf i)).Inv :=
        ⟨hhost, .accept s body i, htrace.accept hfree.2 (hevents hvalid)⟩
      exact haccept.drive
  · simp [hi] at hprim
  · rcases tfdTransfer_cases i result s t (hr ▸ hx) with ⟨_, _, rfl⟩ | rfl
    · exact ⟨hhost, hlock, htrace⟩
    · exact ⟨State.hostOnly_hold hhost hi, hlock, htrace⟩
  · rw [hr] at hx
    cases hx
    exact ⟨hhost, hlock, htrace⟩

theorem State.Inv.resetDpe {s : State} (h : s.Inv) : s.resetDpe.Inv :=
  ⟨fun r hr => h.1 r (List.mem_filter.mp hr).1, .of_free ⟨rfl, rfl⟩, .of_reset rfl rfl rfl⟩

/-- Settles O58, by the four kinds of step: each of reset, drive and host operation keeps the invariant. -/
theorem invariantKeptByEveryStep : Obligations.InvariantKeptByEveryStep := by
  intro s t h ht
  rcases step_cases s t ht with ⟨-, rfl⟩ | ⟨-, -, rfl⟩ | ⟨-, -, ks, n, rfl⟩ |
    ⟨-, ks, n, r, rest, i, hg, hf, hx⟩
  · exact h.resetDpe
  · exact h
  · have hchosen : (s.chosen ks n).Inv := h
    exact hchosen.drive
  · obtain ⟨hhost, hlock, htrace⟩ := h
    obtain ⟨hr, hrest, -⟩ := grants_mem _ _ _ _ hg
    have hserve : ((s.chosen ks n).serve rest r.caller).Inv := ⟨fun x hmem => hhost x (hrest x hmem), hlock, htrace⟩
    exact exec_inv (Payload.fetch_isHostOp (hhost r hr) hf) hserve hx

/-! ## Reset -/

/-- Settles O48: the values of State.resetWith. -/
theorem resetValues : Obligations.ResetValues :=
  fun _ => ⟨rfl, rfl, rfl, rfl, rfl, rfl, rfl⟩

/-- Settles O59: after reset no request is held, the lock is free and the trace is empty. -/
theorem invariantHoldsAtReset : Obligations.InvariantHoldsAtReset :=
  fun _ => ⟨nofun, .of_free ⟨rfl, rfl⟩, .of_reset rfl rfl rfl⟩

end Sys2Proof.Machine
end

section
/-! PROOFS of the family 20_memory: a step withdraws nothing (R32, R37). A drive extends the DPE's trace and
responses, an answer of the TFD those of the TFD, and exec_shape carries this to every instruction; only a reset
empties a trace (R28, R146). -/

namespace Sys2Proof.Machine

/-- t has the parameters of s, and all that s has recorded and answered, in the same order, comes first in t
(R32, R37). -/
def State.ExtendedBy (s t : State) : Prop :=
  t.cfg = s.cfg ∧ s.tfdTrace <+: t.tfdTrace ∧ s.tfdResponses <+: t.tfdResponses ∧
    s.dpeResponses <+: t.dpeResponses ∧ s.dpeTrace <+: t.dpeTrace

theorem State.ExtendedBy.refl (s : State) : s.ExtendedBy s :=
  ⟨rfl, List.prefix_rfl, List.prefix_rfl, List.prefix_rfl, List.prefix_rfl⟩

theorem State.extendedBy_hold (s : State) (i : Instr) : s.ExtendedBy (s.hold i) :=
  .refl s

theorem State.extendedBy_respondDpe (s : State) (c : Nat) (r : Result) : s.ExtendedBy (s.respondDpe c r) :=
  ⟨rfl, List.prefix_rfl, List.prefix_rfl, List.prefix_append .., List.prefix_rfl⟩

theorem State.extendedBy_respondTfd (s : State) (c : Nat) (r : Result) : s.ExtendedBy (s.respondTfd c r) :=
  ⟨rfl, List.prefix_rfl, List.prefix_append .., List.prefix_rfl, List.prefix_rfl⟩

theorem State.extendedBy_drive (s : State) : s.ExtendedBy s.drive := by
  obtain ⟨es, rs, htrace, hresponses⟩ := s.drive_trace
  exact ⟨s.drive_cfg, by simp, by simp, ⟨rs, hresponses.symm⟩, ⟨es, htrace.symm⟩⟩

/-- Accepting an operation writes the lock and the plan alone; what is recorded comes of the drive after it. -/
theorem dpeOperation_extendedBy (i : Instr) (valid : Bool) (body : List Action) (e : Ending) (s t : State)
    (h : dpeOperation i valid body e s = .next t) : s.ExtendedBy t := by
  rcases dpeOperation_cases i valid body e s t h with ⟨-, rfl⟩ | ⟨-, -, rfl⟩ | ⟨-, -, rfl⟩
  · exact s.extendedBy_hold i
  · exact s.extendedBy_respondDpe _ _
  · exact (s.accept body e).extendedBy_drive

theorem primitive_extendedBy (actions : List Action) (s t : State) (h : primitive actions s = .next t) :
    s.ExtendedBy t := by
  cases h
  exact (s.enqueue actions).extendedBy_drive

theorem tfdTransfer_extendedBy (i : Instr) (result : ReadResult → Result) (s t : State)
    (h : tfdTransfer i result s = .next t) : s.ExtendedBy t := by
  rcases tfdTransfer_cases i result s t h with ⟨e, r, rfl⟩ | rfl
  · exact ⟨rfl, List.prefix_append .., List.prefix_append .., List.prefix_rfl, List.prefix_rfl⟩
  · exact s.takeTransfer.extendedBy_hold i

theorem tfdAnswer_extendedBy (r : Result) (s t : State) (h : tfdAnswer r s = .next t) : s.ExtendedBy t := by
  cases h
  exact s.extendedBy_respondTfd _ _

/-- No instruction of either block withdraws an event or a response. -/
theorem exec_extendedBy (i : Instr) (s t : State) (h : exec i s = .next t) : s.ExtendedBy t := by
  rcases exec_shape i s with ⟨_, _, hx, -⟩ | ⟨_, hx, -⟩ | ⟨_, hx, -⟩ | ⟨_, hx, -⟩
  · exact dpeOperation_extendedBy _ _ _ _ s t (hx ▸ h)
  · exact primitive_extendedBy _ s t (hx ▸ h)
  · exact tfdTransfer_extendedBy _ _ s t (hx ▸ h)
  · exact tfdAnswer_extendedBy _ s t (hx ▸ h)

/-- Choosing a move and serving a request record nothing, so a step without a reset extends the state it began
in. -/
theorem step_extendedBy (s t : State) (hr : s.resetAsserted = false) (h : step s = .next t) : s.ExtendedBy t := by
  rcases step_cases s t h with ⟨hreset, -⟩ | ⟨-, -, rfl⟩ | ⟨-, -, ks, n, rfl⟩ |
    ⟨-, ks, n, r, rest, i, -, -, hx⟩
  · simp [hr] at hreset
  · exact .refl t
  · exact (s.chosen ks n).extendedBy_drive
  · exact exec_extendedBy i ((s.chosen ks n).serve rest r.caller) t hx

/-- Settles O57: a reset leaves the TFD and the responses as they are, and any other step extends all four lists. -/
theorem stepsOnlyAppend : Obligations.StepsOnlyAppend := by
  intro s t h
  by_cases hr : s.resetAsserted = true
  · rw [step_reset s hr] at h
    cases h
    exact ⟨rfl, ⟨[], by simp⟩, ⟨[], by simp⟩, ⟨[], by simp⟩, fun hno => absurd hr (by simp [hno])⟩
  · obtain ⟨hcfg, ⟨xs, hx⟩, ⟨rs, hrs⟩, ⟨ds, hds⟩, ⟨es, hes⟩⟩ := step_extendedBy s t (by simpa using hr) h
    exact ⟨hcfg, ⟨xs, hx.symm⟩, ⟨rs, hrs.symm⟩, ⟨ds, hds.symm⟩, fun _ => ⟨es, hes.symm⟩⟩

end Sys2Proof.Machine
end

section
/-! PROOFS of the family 30_encoding: decoding and encoding are inverse to each other, format by format (R46, R50 to
R53, R58, R59); what a request may carry and which words are refused (R58, R62); the bits of the composed bytes, and
that every byte of an operation is one (R47, R63, R151); the fields of a frame (R59 to R61). -/

namespace Sys2Proof.Machine

/-! ## Bits of the byte formats -/

/-- The patterns 1aaaaaaa and 01aaaaaa of R53: the address in the low k bits, a 1 above it. -/
theorem getLsbD_addressByte {k : Nat} (a : BitVec k) (i : Nat) :
    (bitTo 8 k true ||| fieldTo 8 0 a).getLsbD i = (decide (i < 8) && (decide (i = k) || a.getLsbD i)) := by
  rw [BitVec.getLsbD_or, getLsbD_bitTo, getLsbD_fieldTo]
  by_cases h : i < 8 <;> simp [h]

theorem bitsAt_addressByte {k : Nat} (hk : k < 8) (a : BitVec k) :
    bitsAt k 0 (bitTo 8 k true ||| fieldTo 8 0 a) = a := by
  apply BitVec.eq_of_getLsbD_eq
  intro i hi
  rw [getLsbD_bitsAt, getLsbD_addressByte, Nat.zero_add]
  simp [hi, hi.ne, hi.trans hk]

/-- An address byte is made of its address: a 1 at bit k and nothing above it. -/
theorem addressByte_bitsAt {k : Nat} (v : Byte) (hk : v.getLsbD k = true)
    (habove : ∀ i < 8, k < i → v.getLsbD i = false) :
    bitTo 8 k true ||| fieldTo 8 0 (bitsAt k 0 v) = v := by
  apply BitVec.eq_of_getLsbD_eq
  intro i hi
  rw [getLsbD_addressByte, getLsbD_bitsAt, Nat.zero_add]
  rcases lt_trichotomy i k with h | rfl | h
  · simp [hi, h, h.ne]
  · simp [hi, hk]
  · rw [habove i hi h]; simp [h.ne', h.not_gt]

/-- The bits of a bus byte, pattern ddddbewr of R46. -/
theorem getLsbD_busByteOfFields (d : Nibble) (b e w r : Bool) (i : Nat) :
    (busByteOfFields d b e w r).getLsbD i = (decide (i < 8) && (!decide (i < 4) && d.getLsbD (i - 4) ||
      decide (i = 3) && b || decide (i = 2) && e || decide (i = 1) && w || decide (i = 0) && r)) := by
  simp only [busByteOfFields, BitVec.getLsbD_or, getLsbD_fieldTo, getLsbD_bitTo]
  by_cases h : i < 8 <;> simp [h]

theorem decodeBusByte_busByteOfFields (d : Nibble) (b e w r : Bool) :
    decodeBusByte (busByteOfFields d b e w r) = .busByte d b e w r := by
  have hnibble : bitsAt 4 4 (busByteOfFields d b e w r) = d := by
    apply BitVec.eq_of_getLsbD_eq
    intro i hi
    rw [getLsbD_bitsAt, getLsbD_busByteOfFields]
    interval_cases i <;> simp
  simp only [decodeBusByte, hnibble, getLsbD_busByteOfFields]
  simp

theorem busByteOfFields_bits (v : Byte) :
    busByteOfFields (bitsAt 4 4 v) (v.getLsbD 3) (v.getLsbD 2) (v.getLsbD 1) (v.getLsbD 0) = v := by
  apply BitVec.eq_of_getLsbD_eq
  intro i hi
  rw [getLsbD_busByteOfFields, getLsbD_bitsAt]
  interval_cases i <;> simp

/-- The pattern 0000b000 of R50 is its one bit. -/
theorem bitTo_of_and_eq_zero (v : Byte) (h : v &&& 0xF7#8 = 0x00#8) : bitTo 8 3 (v.getLsbD 3) = v := by
  apply BitVec.eq_of_getLsbD_eq
  intro i hi
  have hzero := congrArg (BitVec.getLsbD · i) h
  rw [BitVec.getLsbD_and] at hzero
  rw [getLsbD_bitTo]
  interval_cases i <;> simp_all

/-! ## From the bytes of an instruction to the instruction -/

/-- A byte that carries a narrow field is read as that field by what comes after it. -/
theorem lowField_setWidth_bind {w : Nat} (why : DecodeError) (x : BitVec w) (hw : w ≤ 8)
    (k : BitVec w → Except DecodeError Instr) : (lowField w why (x.setWidth 8) >>= k) = k x := by
  rw [lowField_setWidth why x hw]; rfl

theorem decodeOp_displayString (line : Line) (text : List Byte) :
    decodeOp 0x2 (line.ln.setWidth 8 :: text) = .ok (.displayString text line) :=
  (lowField_setWidth_bind .lineHighBits line.ln (by decide) _).trans (by rw [line.ofLn_ln]; rfl)

theorem decodeOp_displayStringAt (line : Line) (col : Byte) (text : List Byte) :
    decodeOp 0x3 (line.ln.setWidth 8 :: col :: text) = .ok (.displayStringAt text line col) :=
  (lowField_setWidth_bind .lineHighBits line.ln (by decide) _).trans (by rw [line.ofLn_ln]; rfl)

/-- The count g is a 4-bit field, so it tells up to 15 glyphs apart (R58). -/
theorem decodeOp_loadCustomChars (glyphs : List (List Byte)) (hcount : glyphs.length ≤ 15)
    (hrows : ∀ g ∈ glyphs, g.length = 8) :
    decodeOp 0x6 (BitVec.ofNat 8 glyphs.length :: glyphs.flatten) = .ok (.loadCustomChars glyphs) := by
  have hbyte : BitVec.ofNat 8 glyphs.length = (BitVec.ofNat 4 glyphs.length).setWidth 8 := by
    apply BitVec.eq_of_toNat_eq
    simp only [BitVec.toNat_setWidth, BitVec.toNat_ofNat]
    omega
  have hcut : cutGlyphs (BitVec.ofNat 4 glyphs.length).toNat glyphs.flatten = .ok glyphs := by
    rw [BitVec.toNat_ofNat, Nat.mod_eq_of_lt (by omega), cutGlyphs_flatten glyphs hrows]
  rw [hbyte]
  exact (lowField_setWidth_bind .glyphCountHighBits _ (by decide) _).trans (by rw [hcut]; rfl)

theorem decodeCommand_setDdram (a : BitVec 7) : decodeCommand (0x80#8 ||| fieldTo 8 0 a) = .ok (.setDdramByte a) := by
  have hbit : (bitTo 8 7 true ||| fieldTo 8 0 a).getLsbD 7 = true := by rw [getLsbD_addressByte]; rfl
  change decodeCommand (bitTo 8 7 true ||| fieldTo 8 0 a) = _
  rw [decodeCommand, if_pos hbit, bitsAt_addressByte (by decide)]

theorem decodeCommand_setCgram (a : BitVec 6) : decodeCommand (0x40#8 ||| fieldTo 8 0 a) = .ok (.setCgramByte a) := by
  have hbit7 : ¬ (bitTo 8 6 true ||| fieldTo 8 0 a).getLsbD 7 = true := by rw [getLsbD_addressByte]; simp
  have hbit6 : (bitTo 8 6 true ||| fieldTo 8 0 a).getLsbD 6 = true := by rw [getLsbD_addressByte]; rfl
  change decodeCommand (bitTo 8 6 true ||| fieldTo 8 0 a) = _
  rw [decodeCommand, if_neg hbit7, if_pos hbit6, bitsAt_addressByte (by decide)]

theorem decodeRawBacklight_bitTo (b : Bool) : decodeRawBacklight (bitTo 8 3 b) = .ok (.rawBacklight b) := by
  cases b <;> rfl

theorem decodeRow_frame (w : FrameWord) : decodeRow .frame (wordBytes w) = .ok (decodeFrameWord w) := by
  rw [wordBytes, decodeRow, assembleBytes_bitsAt]

/-- Settles O3, by the format of each instruction: operation words with operands by decodeOp, controller bytes by
decodeCommand, bus bytes and frames by their bits. -/
theorem decodeOfEncodeIsTheInstruction : Obligations.DecodeOfEncodeIsTheInstruction := by
  intro i hwf f bytes h
  cases i <;> cases h
  case displayString text line => exact decodeOp_displayString line text
  case displayStringAt text line col => exact decodeOp_displayStringAt line col text
  case backlight on => cases on <;> rfl
  case loadCustomChars glyphs =>
    obtain ⟨hcount, hrows⟩ := Bool.and_eq_true_iff.mp hwf
    exact decodeOp_loadCustomChars glyphs (by simpa using hcount) (by simpa using hrows)
  case internalCelsius raw => exact congrArg (Except.ok ∘ Instr.internalCelsius) (assembleRaw_bitsAt raw)
  case thermocoupleCelsius raw => exact congrArg (Except.ok ∘ Instr.thermocoupleCelsius) (assembleRaw_bitsAt raw)
  case decode word => exact congrArg (Except.ok ∘ Instr.decode) (assembleBytes_bitsAt word)
  case setCgramByte a => exact decodeCommand_setCgram a
  case setDdramByte a => exact decodeCommand_setDdram a
  case busByte d b e w r => exact congrArg Except.ok (decodeBusByte_busByteOfFields d b e w r)
  case rawBacklight b => exact decodeRawBacklight_bitTo b
  case frame tSign tMag x f iSign iMag y c => rw [decodeRow_frame, decodeFrameWord_frameWordOf]
  all_goals rfl

/-! ## From bytes that decode to the instruction they are the bytes of -/

/-- The instructions of the reserved operation codes, which are read whatever stands beside op (R62): what encode
answers for them is one of many words that decode to them. -/
def reservedInstrs : List Instr := [.reserved7, .reservedD, .reservedE, .reservedF]

theorem mem_reservedInstrs {i : Instr} :
    i ∈ reservedInstrs ↔ i = .reserved7 ∨ i = .reservedD ∨ i = .reservedE ∨ i = .reservedF := by
  simp [reservedInstrs]

theorem exists_of_bind_ok {α β : Type} {x : Except DecodeError α} {k : α → Except DecodeError β} {b : β}
    (h : x >>= k = .ok b) : ∃ a, x = .ok a ∧ k a = .ok b := by
  cases x with
  | error e => cases h
  | ok a => exact ⟨a, rfl, h⟩

/-- A loadCustomChars word that decodes carries the count and the rows of its glyphs (R58). -/
theorem decodeOp_glyphs_ok {g : Byte} {rows : List Byte} {i : Instr} (h : decodeOp 0x6 (g :: rows) = .ok i) :
    ∃ glyphs, i = .loadCustomChars glyphs ∧ BitVec.ofNat 8 glyphs.length = g ∧ glyphs.flatten = rows := by
  obtain ⟨n, hn, h⟩ := exists_of_bind_ok h
  obtain ⟨glyphs, hcut, h⟩ := exists_of_bind_ok h
  obtain ⟨hlength, hflatten⟩ := cutGlyphs_ok _ _ _ hcut
  cases h
  exact ⟨glyphs, rfl, by rw [hlength, lowField_ok hn, BitVec.ofNat_toNat], hflatten⟩

/-- The operand bytes of each op are those its operands are encoded in (R58). -/
theorem encode_of_decodeOp {op : BitVec 4} {beside : List Byte} {i : Instr} (h : decodeOp op beside = .ok i)
    (hr : i ∉ reservedInstrs) : encode i = some (.opw, op.setWidth 8 :: beside) := by
  unfold decodeOp at h
  split at h
  case h_17 => cases h
  all_goals
    rename_i hop
    rw [← BitVec.ofNat_toNat, hop]
  case h_3 ln text =>
    obtain ⟨n, hn, h⟩ := exists_of_bind_ok h
    cases h
    rw [lowField_ok hn, encode, Line.ln_ofLn]; rfl
  case h_4 ln col text =>
    obtain ⟨n, hn, h⟩ := exists_of_bind_ok h
    cases h
    rw [lowField_ok hn, encode, Line.ln_ofLn]; rfl
  case h_6 on =>
    obtain ⟨n, hn, h⟩ := exists_of_bind_ok h
    cases h
    have hbit : ∀ n : BitVec 1, bitTo 8 0 (n.getLsbD 0) = n.setWidth 8 := by decide
    rw [lowField_ok hn, encode, hbit]; rfl
  case h_7 g rows =>
    obtain ⟨glyphs, rfl, rfl, rfl⟩ := decodeOp_glyphs_ok h
    rfl
  case h_11 | h_12 => cases h; rw [encode, rawBytes_assembleRaw]; rfl
  case h_13 => cases h; rw [encode, wordBytes_assembleBytes]; rfl
  case h_8 | h_14 | h_15 | h_16 => cases h; simp [reservedInstrs] at hr
  all_goals cases h; rfl

theorem encode_of_decodeOpw {bytes : List Byte} {i : Instr} (h : decodeOpw bytes = .ok i) (hr : i ∉ reservedInstrs) :
    encode i = some (.opw, bytes) := by
  cases bytes with
  | nil => cases h
  | cons b beside =>
    obtain ⟨op, hop, h⟩ := exists_of_bind_ok h
    rw [encode_of_decodeOp h hr, lowField_ok hop]

/-- A command byte the DPE emits is one of the two address patterns of R53 or one of the six values of R52. -/
theorem encode_of_decodeCommand {v : Byte} {i : Instr} (h : decodeCommand v = .ok i) :
    encode i = some (.lcdCmd, [v]) := by
  unfold decodeCommand at h
  split_ifs at h with h7 h6 hv hv hv hv hv hv <;> cases h
  case pos =>
    rw [encode, show (0x80#8 : Byte) = bitTo 8 7 true from rfl, addressByte_bitsAt v h7 (by omega)]
  case pos =>
    have h7 : v.getLsbD 7 = false := by simpa using h7
    have habove : ∀ i < 8, 6 < i → v.getLsbD i = false := fun i hi hlt => by rwa [show i = 7 by omega]
    rw [encode, show (0x40#8 : Byte) = bitTo 8 6 true from rfl, addressByte_bitsAt v h6 habove]
  all_goals rw [hv]; rfl

theorem encode_of_decodeRow {f : Format} {bytes : List Byte} {i : Instr} (h : decodeRow f bytes = .ok i)
    (hr : i ∉ reservedInstrs) : encode i = some (f, bytes) := by
  unfold decodeRow at h
  split at h
  case h_1 => exact encode_of_decodeOpw h hr
  case h_2 => exact encode_of_decodeCommand h
  case h_3 => cases h; rfl
  case h_4 v => cases h; rw [decodeBusByte, encode, busByteOfFields_bits]
  case h_5 v =>
    unfold decodeRawBacklight at h
    split at h
    case isTrue hv => cases h; rw [encode, bitTo_of_and_eq_zero v hv]
    case isFalse => cases h
  case h_6 b0 b1 b2 b3 =>
    cases h
    rw [decodeFrameWord, encode, frameWordOf_fields, wordBytes_assembleBytes]
  all_goals cases h

/-- Settles O4: encode_of_decodeRow, by the inverse of each format's decoding. -/
theorem everyWordHasOneMeaning : Obligations.EveryWordHasOneMeaning := by
  intro f bytes i h h7 hD hE hF
  exact encode_of_decodeRow h (by simp [mem_reservedInstrs, h7, hD, hE, hF])

/-! ## What may be requested, and what is refused -/

theorem encode_eq_none (i : Instr) : encode i = none ↔ i.isPrimitive = true := by
  cases i <;> simp [encode, Instr.isPrimitive]

/-- What decodes has an encoding or is reserved, and a primitive is neither. -/
theorem isPrimitive_of_decodeRow {f : Format} {bytes : List Byte} {i : Instr} (h : decodeRow f bytes = .ok i) :
    i.isPrimitive = false := by
  by_cases hr : i ∈ reservedInstrs
  · obtain rfl | rfl | rfl | rfl := mem_reservedInstrs.mp hr <;> rfl
  · have henc := encode_of_decodeRow h hr
    by_contra hp
    rw [(encode_eq_none i).mpr (by simpa using hp)] at henc
    cases henc

theorem isHostOp_of_isPrimitive {i : Instr} (h : i.isPrimitive = true) : i.isHostOp = false := by
  cases i <;> cases h <;> rfl

/-- On a free DPE the schedule's number is the number of the held request that is granted (R131). -/
theorem State.choose_free (s : State) (k : Nat) (ks : List Nat) (hk : k < s.requests.length) (hf : s.free)
    (hs : s.schedule = k :: ks) :
    s.choose = some (.grant s.requests[k] (s.requests.eraseIdx k), s.chosen ks s.freeCount) := by
  apply s.choose_number k ks _ _ hs
  simp [State.moves, hf.2, s.dpeIdle_iff.mpr hf, grants_idle, hk]

/-- Settles O6: a primitive has no encoding, so nothing decodes to it, and a request that names one by a call is
refused by fetch in the step that grants it. -/
theorem onlyHostOperationsOnTheCommandPort : Obligations.OnlyHostOperationsOnTheCommandPort := by
  refine ⟨decodeOpw_isHostOp, fun _ _ _ => isPrimitive_of_decodeRow, encode_eq_none,
    fun _ => isHostOp_of_isPrimitive, ?_⟩
  intro s k ks i hk hreset hfree hs hcall hi
  have hfetch : s.requests[k].payload.fetch = .error .notRequestable := by simp [hcall, Payload.fetch, hi]
  rw [step_grant s _ _ _ _ hreset (s.choose_free k ks hk hfree hs), hfetch]

theorem exec_loadCustomChars_refused (glyphs : List (List Byte)) (s : State) (hf : s.free) (h : 8 < glyphs.length) :
    exec (.loadCustomChars glyphs) s = .next (s.answered .invalidOperand) := by
  have hinvalid : glyphsOk glyphs = false := by
    by_contra hok
    have := ((glyphsOk_iff glyphs).mp (by simpa using hok)).1
    omega
  rw [exec, execLoadCustomChars, hinvalid, dpeOperation_refused _ _ _ s hf]; rfl

/-- Settles O21: the reserved codes are refused by their meanings; a word with a glyph count above 8 decodes to more
than 8 glyphs, which loadCustomChars refuses. -/
theorem reservedOpsAreRefused : Obligations.ReservedOpsAreRefused := by
  refine ⟨fun _ => ⟨rfl, rfl, rfl, rfl⟩, fun s hf => dpeOperation_refused _ _ _ s hf, ?_, ?_⟩
  · rintro s i (rfl | rfl | rfl) <;> rfl
  · intro s g rows i hf hg h
    obtain ⟨glyphs, rfl, rfl, -⟩ := decodeOp_glyphs_ok h
    have hcount : 8 < glyphs.length := by
      rw [BitVec.toNat_ofNat] at hg
      exact hg.trans_le (Nat.mod_le _ _)
    exact exec_loadCustomChars_refused glyphs s hf hcount

/-! ## Composed bytes -/

/-- Each mask picks from a composed byte the bit it was composed with, and RW_MASK a 0 (R47, R63). -/
theorem compose_and_masks {cfg : Config} (h : cfg.masksOk = true) (on : Bool) (n : Nibble) (rs en : Bool) :
    (compose cfg on n rs en &&& cfg.blMask ≠ 0 ↔ on = true) ∧
    (compose cfg on n rs en &&& cfg.enMask ≠ 0 ↔ en = true) ∧
    (compose cfg on n rs en &&& cfg.rsMask ≠ 0 ↔ rs = true) ∧
    compose cfg on n rs en &&& cfg.rwMask = 0 := by
  obtain ⟨a, b, c, d, ha, hb, hc, hd, hab, hac, had, hbc, hbd, hcd, hrs, hrw, hen, hbl⟩ := masksOk_places cfg h
  have hbit := getLsbD_compose cfg a c d hrs hen hbl on n rs en
  refine ⟨?_, ?_, ?_, ?_⟩
  · rw [hbl, and_mask_ne_zero _ d (by omega), hbit]
    simp [hd, hcd.symm, had.symm, show d < 8 by omega]
  · rw [hen, and_mask_ne_zero _ c (by omega), hbit]
    simp [hc, hcd, hac.symm, show c < 8 by omega]
  · rw [hrs, and_mask_ne_zero _ a (by omega), hbit]
    simp [ha, hac, had, show a < 8 by omega]
  · rw [hrw, ← not_ne_iff, and_mask_ne_zero _ b (by omega), hbit]
    simp [hb, hab.symm, hbc, hbd]

theorem bitsAt_compose {cfg : Config} (h : cfg.masksOk = true) (on : Bool) (n : Nibble) (rs en : Bool) :
    bitsAt 4 4 (compose cfg on n rs en) = n := by
  obtain ⟨a, b, c, d, ha, hb, hc, hd, -, -, -, -, -, -, hrs, -, hen, hbl⟩ := masksOk_places cfg h
  apply BitVec.eq_of_getLsbD_eq
  intro i hi
  rw [getLsbD_bitsAt, getLsbD_compose cfg a c d hrs hen hbl]
  simp [hi, show 4 + i < 8 by omega, show 4 + i ≠ a by omega, show 4 + i ≠ c by omega, show 4 + i ≠ d by omega]

/-- Settles O1: the nibble of a composed byte, and its four control bits mask by mask. -/
theorem composeSetsExactlyItsBits : Obligations.ComposeSetsExactlyItsBits :=
  fun _ on n rs en h => ⟨bitsAt_compose h on n rs en, compose_and_masks h on n rs en⟩

/-- Every write of the list is a composed byte with the backlight state on (R47). -/
def Composed (cfg : Config) (on : Bool) (actions : List Action) : Prop :=
  ∀ b, Action.write b ∈ actions → ∃ n rs en, b = compose cfg on n rs en

section composed
variable {cfg : Config} {on : Bool}

theorem Composed.nil : Composed cfg on [] := nofun

theorem Composed.wait (t : Nat) : Composed cfg on [.wait t] := by
  intro b h
  simp at h

theorem Composed.append {as bs : List Action} (ha : Composed cfg on as) (hb : Composed cfg on bs) :
    Composed cfg on (as ++ bs) :=
  fun b h => (List.mem_append.mp h).elim (ha b) (hb b)

theorem Composed.flatMap {α : Type} (xs : List α) {f : α → List Action} (h : ∀ x, Composed cfg on (f x)) :
    Composed cfg on (xs.flatMap f) := by
  intro b hb
  obtain ⟨x, -, hx⟩ := List.mem_flatMap.mp hb
  exact h x b hx

theorem Composed.strobe (n : Nibble) (rs : Bool) : Composed cfg on (strobeActions cfg on n rs) := by
  intro b h
  simp only [strobeActions, List.mem_cons, Action.write.injEq, reduceCtorEq, false_or, or_false,
    List.not_mem_nil] at h
  obtain rfl | rfl := h <;> exact ⟨n, rs, _, rfl⟩

theorem Composed.write4 (n : Nibble) (rs : Bool) : Composed cfg on (write4Actions cfg on n rs) := by
  refine .append ?_ (.strobe n rs)
  intro b h
  simp only [List.mem_cons, Action.write.injEq, reduceCtorEq, or_false, List.not_mem_nil] at h
  exact ⟨n, rs, false, h⟩

theorem Composed.send (v : Byte) (rs : Bool) : Composed cfg on (sendActions cfg on v rs) :=
  .append (.write4 _ rs) (.write4 _ rs)

theorem Composed.data (vs : List Byte) : Composed cfg on (dataActions cfg on vs) :=
  .flatMap vs fun v => .send v true

theorem Composed.text (address : Nat) (text : List Byte) : Composed cfg on (textBody cfg on address text) :=
  .append (.send _ false) (.data text)

end composed

/-- The DPE issues composed bytes alone, but for the raw backlight byte of backlight(on) and of its row, a bus byte
of given fields and a bare emit (R47, R50). -/
theorem exec_composed (i : Instr) (s : State) (hblock : i.block = .dpe) (hlight : ∀ on, i ≠ .backlight on)
    (hraw : ∀ on, i ≠ .rawBacklight on) (hbus : ∀ d b e w r, i ≠ .busByte d b e w r) (hemit : ∀ b, i ≠ .emit b) :
    ∃ actions, Composed s.cfg s.backlightOn actions ∧
      ((∃ valid, exec i s = dpeOperation i valid actions (endingOf i) s) ∨ exec i s = primitive actions s) := by
  cases i
  case init =>
    exact ⟨_, .append (.flatMap _ fun v => .send v false) (.wait _), .inl ⟨_, rfl⟩⟩
  case writeChar c => exact ⟨_, .send c true, .inl ⟨_, rfl⟩⟩
  case displayString text line => exact ⟨_, .text _ text, .inl ⟨_, rfl⟩⟩
  case displayStringAt text line col => exact ⟨_, .text _ text, .inl ⟨_, rfl⟩⟩
  case clear => exact ⟨_, .append (.send _ false) (.send _ false), .inl ⟨_, rfl⟩⟩
  case loadCustomChars glyphs =>
    exact ⟨_, .append (.send _ false) (.flatMap glyphs fun g => .data g), .inl ⟨_, rfl⟩⟩
  case reserved7 => exact ⟨_, .nil, .inl ⟨_, rfl⟩⟩
  case pause t => exact ⟨_, .wait t, .inr rfl⟩
  case strobe n rs => exact ⟨_, .strobe n rs, .inr rfl⟩
  case write4 n rs => exact ⟨_, .write4 n rs, .inr rfl⟩
  case backlight on => exact absurd rfl (hlight on)
  case rawBacklight on => exact absurd rfl (hraw on)
  case busByte d b e w r => exact absurd rfl (hbus d b e w r)
  case emit b => exact absurd rfl (hemit b)
  case readFrame | getTemperature | internalCelsius | thermocoupleCelsius | decode | reservedD | reservedE
      | reservedF | frame => cases hblock
  all_goals exact ⟨_, .send _ _, .inr rfl⟩

/-- Every byte written on the way from s to t, whether answered ok or failed, is a write of the list. -/
def State.WritesFrom (s t : State) (actions : List Action) : Prop :=
  ∃ es, t.dpeTrace = s.dpeTrace ++ es ∧ ∀ e ∈ es, ∀ b, e.byte? = some b → Action.write b ∈ actions

theorem State.WritesFrom.refl (s : State) (actions : List Action) : s.WritesFrom s actions :=
  ⟨[], (List.append_nil _).symm, nofun⟩

theorem dpeOperation_writesFrom {i : Instr} {valid : Bool} {body : List Action} {e : Ending} {s t : State}
    (h : dpeOperation i valid body e s = .next t) : s.WritesFrom t body := by
  rcases dpeOperation_cases i valid body e s t h with ⟨-, rfl⟩ | ⟨-, -, rfl⟩ | ⟨-, -, rfl⟩
  · exact .refl s body
  · exact .refl s body
  · exact (s.accept body e).drive_bytes _ rfl

theorem primitive_writesFrom {actions : List Action} {s t : State} (hidle : s.inProgress = none)
    (h : primitive actions s = .next t) : s.WritesFrom t actions := by
  cases h
  exact (s.enqueue actions).drive_bytes ⟨actions, false, .primitive, s.caller⟩ (by simp [hidle])

/-- Settles O30: what is written comes from a list of composed bytes (exec_composed), whose bits compose_and_masks
gives; the TFD writes nothing to the bus. -/
theorem everyByteCarriesTheBacklightBit : Obligations.EveryByteCarriesTheBacklightBit := by
  intro i s t hmasks hidle hlight hraw hbus hemit h
  cases hblock : i.block with
  | tfd =>
    obtain ⟨-, -, -, -, -, -, htrace, -⟩ := exec_sameDpe i s t hblock h
    exact ⟨[], by rw [htrace, List.append_nil], nofun⟩
  | dpe =>
    obtain ⟨actions, hcomposed, hexec⟩ := exec_composed i s hblock hlight hraw hbus hemit
    have hwrites : s.WritesFrom t actions := by
      rcases hexec with ⟨_, hx⟩ | hx
      · exact dpeOperation_writesFrom (hx ▸ h)
      · exact primitive_writesFrom hidle (hx ▸ h)
    obtain ⟨es, htrace, hbytes⟩ := hwrites
    refine ⟨es, htrace, fun e he b hb => ?_⟩
    obtain ⟨n, rs, en, rfl⟩ := hcomposed b (hbytes e he b hb)
    obtain ⟨hbl, -, -, hrw⟩ := compose_and_masks hmasks s.backlightOn n rs en
    exact ⟨hbl, hrw⟩

/-! ## Frames -/

/-- R104's formula rule as a subtraction: the field less the largest value it can hold. -/
theorem signedRaw_formula (N v : Nat) (sign : Bool) :
    signedRaw .formula N sign v = if sign then (v : Int) - (2 ^ N - 1) else v := by
  rw [signedRaw, negN, neg_sub]

/-- The result of a frame word made of fields, in those fields; x and y do not occur in it (R59, R61). -/
theorem decodeFrame_frameWordOf (rule : NegRule) (tSign : Bool) (tMag : BitVec 13) (x f iSign : Bool)
    (iMag : BitVec 11) (y : Bool) (c : BitVec 3) :
    decodeFrame rule (frameWordOf tSign tMag x f iSign iMag y c) =
      ⟨BitVec.ofInt 16 (signedRaw rule 11 iSign iMag.toNat), BitVec.ofInt 16 (signedRaw rule 13 tSign tMag.toNat),
        if f then c else 0⟩ := by
  have hfields := decodeFrameWord_frameWordOf tSign tMag x f iSign iMag y c
  rw [decodeFrameWord, Instr.frame.injEq] at hfields
  obtain ⟨htSign, -, -, hf, hiSign, -, -, hc⟩ := hfields
  obtain ⟨hi, ht⟩ := frameWordOf_magnitudes tSign tMag x f iSign iMag y c
  rw [decodeFrame, internalRaw, thermocoupleRaw, faultCode, hi, ht, htSign, hiSign, hf, hc]

/-- Settles O41: decodeFrame_frameWordOf, under each of the two rules. -/
theorem frameRowIsDecodedByItsFields : Obligations.FrameRowIsDecodedByItsFields := by
  intro s tSign tMag x f iSign iMag y c
  rw [exec, execFrame, decodeFrame_frameWordOf]
  cases s.cfg.negRule with
  | formula => rw [signedRaw_formula, signedRaw_formula]; rfl
  | twosComplement => rfl

/-- The internal raw code is a function of bits 15..4 (R105). -/
theorem internalRaw_eq (rule : NegRule) (w : FrameWord) :
    internalRaw rule w = signedRaw rule 11 ((bitsAt 12 4 w).getLsbD 11) ((bitsAt 12 4 w).toNat % 2 ^ 11) := by
  have hfield : internalField w = (bitsAt 12 4 w).toNat % 2 ^ 11 := by
    rw [internalField_eq, bitsAt, BitVec.extractLsb'_toNat, Nat.shiftRight_eq_div_pow,
      Nat.mod_mod_of_dvd _ (pow_dvd_pow 2 (by decide))]
  rw [internalRaw, hfield, getLsbD_bitsAt]; rfl

/-- The thermocouple raw code is a function of bits 31..18 (R106). -/
theorem thermocoupleRaw_eq (rule : NegRule) (w : FrameWord) :
    thermocoupleRaw rule w = signedRaw rule 13 ((bitsAt 14 18 w).getLsbD 13) ((bitsAt 14 18 w).toNat % 2 ^ 13) := by
  have hfield : thermocoupleField w = (bitsAt 14 18 w).toNat % 2 ^ 13 := by
    rw [thermocoupleField_eq, bitsAt, BitVec.extractLsb'_toNat, Nat.shiftRight_eq_div_pow,
      Nat.mod_mod_of_dvd _ (pow_dvd_pow 2 (by decide))]
  rw [thermocoupleRaw, hfield, getLsbD_bitsAt]; rfl

/-- Settles O38: each result field as a function of its own bits. -/
theorem frameFieldsAreIndependent : Obligations.FrameFieldsAreIndependent := by
  intro rule w w'
  refine ⟨fun h => ?_, fun h => ?_, fun hf hc => ?_⟩
  · have h : bitsAt 12 4 w = bitsAt 12 4 w' := h
    simp only [decodeFrame, internalRaw_eq, h]
  · have h : bitsAt 14 18 w = bitsAt 14 18 w' := h
    simp only [decodeFrame, thermocoupleRaw_eq, h]
  · simp only [decodeFrame, faultCode, bitsAt, hf, hc]

/-! ## Controller bytes and bus bytes on their own -/

/-- Settles O11: primEvents gives each row the events of one logical byte, and primEvents_clean issues them. -/
theorem controllerBytesAreSentWhole : Obligations.ControllerBytesAreSentWhole := by
  intro s hidle hok
  have sent : ∀ i v rs, primEvents s i = some (byteEvents s.cfg s.backlightOn v rs) →
      exec i s = .next (s.wrote 6 6 (byteEvents s.cfg s.backlightOn v rs)) :=
    fun i v rs h => primEvents_clean s i _ h hidle hok
  exact ⟨sent _ _ _ rfl, sent _ _ _ rfl, sent _ _ _ rfl, sent _ _ _ rfl, sent _ _ _ rfl, sent _ _ _ rfl,
    fun _ => sent _ _ _ rfl, fun _ => sent _ _ _ rfl, fun _ => sent _ _ _ rfl⟩

/-- Settles O12: primEvents gives each of the two rows one write, and primEvents_clean issues it. -/
theorem busBytesAreOneWrite : Obligations.BusBytesAreOneWrite := by
  intro s hidle hok
  have written : ∀ i b, primEvents s i = some [.W b] → exec i s = .next (s.wrote 1 0 [.W b]) :=
    fun i b h => primEvents_clean s i [.W b] h hidle hok
  exact ⟨fun _ _ _ _ _ => written _ _ rfl, fun _ => written _ _ rfl⟩

/-! ## Addresses and written words -/

/-- Settles O2, by the line bases of R55. -/
theorem displayAddresses : Obligations.DisplayAddresses :=
  ⟨fun _ => ⟨rfl, rfl, rfl, rfl⟩, rfl, rfl, rfl⟩

/-- Settles O5, by running the decoder on each word. -/
theorem writtenWordsDecode : Obligations.WrittenWordsDecode :=
  ⟨rfl, rfl, rfl, rfl, rfl, rfl, rfl, rfl⟩

/-! ## displayString and displayStringAt -/

/-- On a free DPE nothing is held, so the name of the operation does not matter: only its check, its events and its
end do. -/
theorem dpeOperation_free {s : State} (hf : s.free) (i j : Instr) (valid : Bool) (body : List Action) (e : Ending) :
    dpeOperation i valid body e s = dpeOperation j valid body e s := by
  simp only [dpeOperation, s.dpeIdle_iff.mpr hf, Bool.not_true, Bool.false_eq_true, if_false]

theorem addrOk_zero (line : Line) : addrOk line 0 = true := by cases line <;> rfl

/-- Settles O31: column 0 is always in its domain and adds nothing to the line base. -/
theorem displayStringIsColumnZero : Obligations.DisplayStringIsColumnZero := by
  intro s text line hf
  calc exec (.displayString text line) s
    _ = dpeOperation (.displayString text line) (textOk s.cfg text)
          (textBody s.cfg s.backlightOn (lineBase line) text) .plain s := rfl
    _ = dpeOperation (.displayStringAt text line 0) (addrOk line 0 && textOk s.cfg text)
          (textBody s.cfg s.backlightOn (ddramAddr line 0) text) .plain s := by
      rw [addrOk_zero, Bool.true_and]
      exact dpeOperation_free hf _ _ _ _ _
    _ = exec (.displayStringAt text line 0) s := rfl

end Sys2Proof.Machine
end

section
/-! PROOFS of the family 40_display_primitives: the events of each primitive, with its writes answered ok or failed
and its waits ended or not (R71 to R79), and the reading of a clean trace back into its logical bytes (R80). -/

namespace Sys2Proof.Machine

/-! ## A failed write -/

/-- Settles O13: the instruction is a primitive with those events (primEvents_exec), which primitive_aborted cuts at
the failed write and primitive_issued issues whole. -/
theorem failedWriteInAPrimitive : Obligations.FailedWriteInAPrimitive := by
  intro s i es hevents hidle
  obtain ⟨actions, rfl, hx⟩ := primEvents_exec s i es hevents
  rw [hx]
  refine ⟨fun hpol done b rest hsplit hok herr => ?_, fun hpol oks hlength hfailed hanswers => ?_⟩
  · exact primitive_aborted actions s hidle hpol done b rest hsplit hok herr
  · have hterr : (s.terrSeen || oks.contains false) = true := by simp [hfailed]
    rw [primitive_issued actions s hidle oks hlength (.inl hpol) hanswers, hterr]

/-! ## Reading a clean trace -/

theorem compose_enable (cfg : Config) (on : Bool) (n : Nibble) (rs : Bool) :
    compose cfg on n rs true = compose cfg on n rs false ||| cfg.enMask := by
  simp only [compose, maskIf, if_true, Bool.false_eq_true, if_false]
  ac_rfl

theorem or_and_self_right (x m : Byte) : (x ||| m) &&& m = m := by
  ext i hi
  simp +contextual

/-- RS_MASK picks the same from both nibbles' bytes: what they were composed with (R75). -/
theorem compose_and_rsMask {cfg : Config} (h : cfg.masksOk = true) (on : Bool) (n : Nibble) (rs en : Bool) :
    compose cfg on n rs en &&& cfg.rsMask = maskIf rs cfg.rsMask := by
  cases rs with
  | false =>
    obtain ⟨-, -, hrs, -⟩ := compose_and_masks h on n false en
    exact not_ne_iff.mp (mt hrs.mp Bool.false_ne_true)
  | true => exact or_and_self_right _ _

theorem compose_and_rsMask_bne_zero {cfg : Config} (h : cfg.masksOk = true) (on : Bool) (n : Nibble) (rs en : Bool) :
    (compose cfg on n rs en &&& cfg.rsMask != 0) = rs := by
  obtain ⟨-, -, hrs, -⟩ := compose_and_masks h on n rs en
  rw [Bool.eq_iff_iff, bne_iff_ne, hrs]

/-- The three writes of a nibble transaction are a group (R80). -/
theorem isGroup_compose {cfg : Config} (h : cfg.masksOk = true) (on : Bool) (n : Nibble) (rs : Bool) :
    isGroup cfg (compose cfg on n rs false) (compose cfg on n rs true) (compose cfg on n rs false) = true := by
  obtain ⟨-, hen, -, hrw⟩ := compose_and_masks h on n rs false
  have hen : compose cfg on n rs false &&& cfg.enMask = 0 := by simpa using hen
  simp [isGroup, compose_enable, hen, hrw]

theorem fieldTo_nibbles (v : Byte) : fieldTo 8 4 (hiNibble v) ||| fieldTo 8 0 (loNibble v) = v := by
  apply BitVec.eq_of_getLsbD_eq
  intro i hi
  simp only [hiNibble, loNibble, BitVec.getLsbD_or, getLsbD_fieldTo, getLsbD_bitsAt]
  interval_cases i <;> simp

theorem joinNibbles_compose {cfg : Config} (h : cfg.masksOk = true) (on : Bool) (v : Byte) (rs : Bool) :
    joinNibbles (compose cfg on (hiNibble v) rs false) (compose cfg on (loNibble v) rs false) = v := by
  rw [joinNibbles, bitsAt_compose h, bitsAt_compose h, fieldTo_nibbles]

/-- One logical byte at the head of a trace is read as its value and its kind, and the reader goes on behind it. -/
theorem logicalBytes_byteEvents {cfg : Config} (h : cfg.masksOk = true) (on : Bool) (v : Byte) (rs : Bool)
    (rest : List DpeEvent) :
    logicalBytes cfg (byteEvents cfg on v rs ++ rest) = (logicalBytes cfg rest).map ((v, rs) :: ·) := by
  calc logicalBytes cfg (byteEvents cfg on v rs ++ rest)
    _ = (logicalBytes cfg rest).map
          ((joinNibbles (compose cfg on (hiNibble v) rs false) (compose cfg on (loNibble v) rs false),
            compose cfg on (hiNibble v) rs false &&& cfg.rsMask != 0) :: ·) :=
      if_pos (by simp [isGroup_compose h, compose_and_rsMask h])
    _ = (logicalBytes cfg rest).map ((v, rs) :: ·) := by
      rw [joinNibbles_compose h, compose_and_rsMask_bne_zero h]

/-- Settles O32, by induction on the logical bytes: the reader takes them off the trace one by one. -/
theorem traceReaderInvertsTheFraming : Obligations.TraceReaderInvertsTheFraming := by
  intro cfg on bs h
  induction bs with
  | nil => rfl
  | cons x bs ih => rw [List.flatMap_cons, logicalBytes_byteEvents h, ih]; rfl

/-! ## One write, one wait -/

/-- Settles O7: one write, answered ok (primEvents_clean), or failed, where either policy ends the list, since
nothing stands behind it (failedWriteInAPrimitive). -/
theorem emitRecordsTheWrite : Obligations.EmitRecordsTheWrite := by
  intro s b hidle
  refine ⟨fun hok => ?_, fun herr => ?_⟩
  · exact primEvents_clean s (.emit b) [.W b] rfl hidle ⟨by simpa using hok, by simp⟩
  · obtain ⟨habort, hcontinue⟩ := failedWriteInAPrimitive s (.emit b) [.W b] rfl hidle
    cases hpol : s.cfg.terrPolicy with
    | abort => exact habort hpol [] b [] rfl ⟨by simp, by simp⟩ herr
    | continueOn => exact hcontinue hpol [false] rfl (by simp) ⟨by simpa using herr, by simp⟩

theorem Action.event_injective : Function.Injective Action.event := by
  intro a a' h
  cases a <;> cases a' <;> cases h <;> rfl

/-- A primitive on its own of which an event does not complete: it and the rest are still to come, with no lock
and no response (R140, R161). -/
theorem primitive_stalled (done : List Action) (a : Action) (rest : List Action) (s : State)
    (h : s.inProgress = none) (oks : List Bool) (hl : oks.length = writeCount (done.map Action.event))
    (hg : s.goesOnAfter oks) (ha : s.answersAre oks (waitCount (done.map Action.event)))
    (hst : s.stallsAt a.event (writeCount (done.map Action.event)) (waitCount (done.map Action.event))) :
    primitive (done ++ a :: rest) s = .next { s.wrote (writeCount (done.map Action.event ++ [a.event]))
        (waitCount (done.map Action.event ++ [a.event])) (withFailures oks (done.map Action.event)) with
      terrSeen := s.terrSeen || oks.contains false
      inProgress := some ⟨a :: rest, oks.contains false, .primitive, s.caller⟩ } := by
  obtain ⟨todo, htodo, hd⟩ := (s.enqueue (done ++ a :: rest)).drive_stalled
    ⟨done ++ a :: rest, false, .primitive, s.caller⟩ (by simp [h]) (done.map Action.event) a.event
    (rest.map Action.event) oks (by simp) hl hg ha hst
  obtain rfl : todo = a :: rest := List.map_injective_iff.mpr Action.event_injective htodo
  rw [primitive, hd]
  simp [State.wrote, State.enqueue, h]

/-- Settles O8: the one wait ends (primEvents_clean), or is still to come (primitive_stalled). -/
theorem pauseAppendsItsWait : Obligations.PauseAppendsItsWait := by
  intro s t hidle
  refine ⟨fun hended => ?_, fun hwaiting => ?_⟩
  · exact primEvents_clean s (.pause t) [.D t] rfl hidle ⟨by simp, by simpa using hended⟩
  · have hstalled := primitive_stalled [] (.wait t) [] s hidle [] rfl (.inr (by simp)) ⟨by simp, by simp⟩ hwaiting
    rw [exec, execPause, ← List.nil_append [Action.wait t], hstalled]
    simp [State.wrote, withFailures]

/-! ## Transactions and logical bytes -/

/-- Settles O9: primEvents gives the two primitives their events, and primEvents_clean issues them. -/
theorem strobeAndNibbleTransaction : Obligations.StrobeAndNibbleTransaction := by
  intro s n rs hidle
  exact ⟨primEvents_clean s (.strobe n rs) _ rfl hidle, primEvents_clean s (.write4 n rs) _ rfl hidle⟩

/-- Settles O10: send and send_cmd issue the events primEvents gives them; the other three mean what the data byte
and the two set-address bytes mean on their own (controllerBytesAreSentWhole). -/
theorem logicalBytePrimitives : Obligations.LogicalBytePrimitives := by
  intro s hidle hok
  obtain ⟨-, -, -, -, -, -, hcgram, hddram, hdata⟩ := controllerBytesAreSentWhole s hidle hok
  exact ⟨fun v rs => primEvents_clean s (.send v rs) _ rfl hidle hok,
    fun v => primEvents_clean s (.sendCmd v) _ rfl hidle hok, hdata, hddram, hcgram⟩

end Sys2Proof.Machine
end

section
/-! PROOFS of the family 41_display_operations: each operation of the DPE, accepted and answered ok, goes on in the
state its rule gives (R87 to R96), with the sizes of R99's table; a resumed operation ends (R86, R122, R133). -/

namespace Sys2Proof.Machine

/-! ## The operations completing -/

/-- An accepted operation with nothing of its own to write at its end: its events, result OK, nothing else (R86). -/
theorem exec_completes {s : State} {i : Instr} {es : List DpeEvent} (h : opEvents s i = some es)
    (hplain : endingOf i = .plain) (hf : s.free) (hok : s.answersOk (writeCount es) (waitCount es)) :
    exec i s = .next ((s.wrote (writeCount es) (waitCount es) es).answered .ok) := by
  rw [opEvents_clean s i es h hf hok, hplain]
  rfl

/-- Settles O14: beside its events and its result, init() writes init_done at its end. -/
theorem initCompletes : Obligations.InitCompletes := by
  intro s hf hok
  have hdone : Ending.init.initDone false s.initDone = true := Bool.or_true _
  rw [opEvents_clean s .init _ rfl hf hok, endingOf, hdone]
  rfl

/-- Settles O15: one data byte. -/
theorem writeCharCompletes : Obligations.WriteCharCompletes :=
  fun _ _ hf hok => exec_completes (es := byteEvents ..) rfl rfl hf hok

/-- Settles O18: two command bytes. -/
theorem clearCompletes : Obligations.ClearCompletes :=
  fun _ hf hok => exec_completes (es := byteEvents .. ++ byteEvents ..) rfl rfl hf hok

/-- Settles O19: beside its one write and its result, backlight(on) writes the backlight bit at its end. -/
theorem backlightCompletes : Obligations.BacklightCompletes :=
  fun s on hf hok => opEvents_clean s (.backlight on) _ rfl hf hok

/-- A command byte and data bytes behind it, the events of the texts and of the glyphs: six writes and six waits a
byte. -/
theorem exec_command_data_completes {s : State} {i : Instr} (v : Byte) (vs : List Byte)
    (h : opEvents s i = some (commandEvents s.cfg s.backlightOn v ++ dataEvents s.cfg s.backlightOn vs))
    (hplain : endingOf i = .plain) (hf : s.free) (hok : s.answersOk (6 * (1 + vs.length)) (6 * (1 + vs.length))) :
    exec i s = .next ((s.wrote (6 * (1 + vs.length)) (6 * (1 + vs.length))
      (commandEvents s.cfg s.backlightOn v ++ dataEvents s.cfg s.backlightOn vs)).answered .ok) := by
  have hwrites : writeCount (commandEvents s.cfg s.backlightOn v ++ dataEvents s.cfg s.backlightOn vs) =
      6 * (1 + vs.length) := by simp [Nat.mul_add]
  have hwaits : waitCount (commandEvents s.cfg s.backlightOn v ++ dataEvents s.cfg s.backlightOn vs) =
      6 * (1 + vs.length) := by simp [Nat.mul_add]
  have hx := exec_completes h hplain hf (by rwa [hwrites, hwaits])
  rwa [hwrites, hwaits] at hx

/-- Settles O17: the byte of the integer sum base + col (R55) is the sum of the two bytes. -/
theorem displayStringAtCompletes : Obligations.DisplayStringAtCompletes := by
  intro s text line col hf haddr htext hok
  have hbyte : BitVec.ofNat 8 (lineBase line + col.toNat) = BitVec.ofNat 8 (lineBase line) + col := by
    rw [BitVec.ofNat_add, BitVec.ofNat_toNat, BitVec.setWidth_eq]
  rw [← hbyte]
  exact exec_command_data_completes _ text (if_pos ⟨haddr, (textOk_iff ..).mpr htext⟩) rfl hf hok

/-- Settles O16, by the line: the address is its base. -/
theorem displayStringCompletes : Obligations.DisplayStringCompletes := by
  intro s text line hf htext hok
  have hx := exec_command_data_completes _ text (if_pos ((textOk_iff ..).mpr htext)) rfl hf hok
    (i := .displayString text line)
  cases line <;> exact hx

/-- Settles O20: the rows of the glyphs, eight each, are the data bytes. -/
theorem loadCustomCharsCompletes : Obligations.LoadCustomCharsCompletes := by
  intro s glyphs hf hcount hrows hok
  have hx := exec_command_data_completes s.cfg.cmdSetCgram glyphs.flatten (i := .loadCustomChars glyphs)
    (if_pos ⟨hcount, hrows⟩) rfl hf
  rw [length_glyphs glyphs hrows, dataEvents, List.flatten_eq_flatMap, List.flatMap_assoc] at hx
  exact hx hok

/-! ## The sizes of the operations -/

/-- R99's row for a command byte with n data bytes behind it. -/
theorem sizes_command_data (cfg : Config) (on : Bool) (v : Byte) (vs : List Byte) :
    writeCount (commandEvents cfg on v ++ dataEvents cfg on vs) = 6 + 6 * vs.length ∧
      (commandEvents cfg on v ++ dataEvents cfg on vs).length = 12 + 12 * vs.length ∧
      waitSum (commandEvents cfg on v ++ dataEvents cfg on vs) = 1400 + 1400 * vs.length := by
  simp [length_dataEvents, waitSum_append, waitSum_dataEvents]

/-- Settles O33, by the operation: exec appends the events of opEvents, whose sizes are those of the bytes sent. -/
theorem operationSizes : Obligations.OperationSizes := by
  intro i s es h hf hok
  refine ⟨_, opEvents_clean s i es h hf hok, rfl, ?_⟩
  cases i
  case init => cases h; exact ⟨rfl, rfl, by simp [waitSum_append, waitSum]⟩
  case writeChar => cases h; exact ⟨rfl, rfl, by simp [waitSum_dataEvents]⟩
  case clear => cases h; exact ⟨rfl, rfl, by simp [waitSum_append]⟩
  case backlight => cases h; exact ⟨rfl, rfl, rfl⟩
  case displayString | displayStringAt =>
    obtain ⟨-, ⟨⟩⟩ := Option.ite_none_right_eq_some.mp h
    exact sizes_command_data ..
  case loadCustomChars glyphs =>
    obtain ⟨⟨-, hrows⟩, ⟨⟩⟩ := Option.ite_none_right_eq_some.mp h
    have hsizes := sizes_command_data s.cfg s.backlightOn s.cfg.cmdSetCgram glyphs.flatten
    rw [length_glyphs glyphs hrows] at hsizes
    simpa only [← Nat.mul_assoc] using hsizes
  all_goals trivial

/-! ## A resumed operation -/

/-- Settles O27: the step drives the operation (step_resume), which issues every event it has left (drive_issued) or
ends at the failed write (drive_aborted); its end is the one the claims write out (finish_ended). -/
theorem resumedOperationEnds : Obligations.ResumedOperationEnds := by
  intro s p hreset hresume hp hending
  rw [step_resume s p hreset hp hresume]
  refine ⟨fun oks hlength hgoes hanswers => ?_, fun hpol done b rest hsplit hok herr => ?_⟩
  · rw [(s.chosen s.schedule.tail s.freeCount).drive_issued p hp oks hlength hgoes hanswers,
      State.finish_ended _ _ _ hending]
    rfl
  · rw [(s.chosen s.schedule.tail s.freeCount).drive_aborted p hp hpol done b rest hsplit hok herr,
      State.finish_ended _ _ _ hending]
    rfl

end Sys2Proof.Machine
end

section
/-! PROOFS of the family 42_thermocouple_decoder: the frame word of four bytes (R102), the raw codes and the fault
code of a word (R104 to R109), the derived encoders (R115), and the operations of the TFD (R101, R103, R110, R111,
R113). -/

namespace Sys2Proof.Machine

/-! ## The frame word and its fault code -/

theorem toNat_bitsAt (w lo : Nat) {n : Nat} (v : BitVec n) : (bitsAt w lo v).toNat = v.toNat / 2 ^ lo % 2 ^ w := by
  rw [bitsAt, BitVec.extractLsb'_toNat, Nat.shiftRight_eq_div_pow]

/-- Settles O34: the four bytes are the base-256 digits of the word (wordBytes_assembleBytes), which has no others. -/
theorem frameAssemblyIsBigEndian : Obligations.FrameAssemblyIsBigEndian := by
  intro b0 b1 b2 b3
  refine ⟨?_, rfl⟩
  have hbytes := wordBytes_assembleBytes b0 b1 b2 b3
  simp only [wordBytes, List.cons.injEq, and_true] at hbytes
  have hword := (assembleBytes b0 b1 b2 b3).isLt
  generalize assembleBytes b0 b1 b2 b3 = w at hbytes hword
  obtain ⟨rfl, rfl, rfl, rfl⟩ := hbytes
  simp only [toNat_bitsAt]
  omega

/-- Settles O37, by the fault bit. -/
theorem faultCodeIsMaskedByTheFaultBit : Obligations.FaultCodeIsMaskedByTheFaultBit := by
  intro rule w
  refine ⟨fun hset => ?_, fun hclear => ?_⟩
  · rw [decodeFrame, faultCode, if_pos hset, toNat_bitsAt, pow_zero, Nat.div_one]; rfl
  · rw [decodeFrame, faultCode, hclear]; rfl

/-! ## Raw codes -/

/-- R104's twos_complement rule is the signed value of the sign bit and the field below it. -/
theorem signedRaw_twosComplement {N : Nat} (x : BitVec (N + 1)) :
    signedRaw .twosComplement N (x.getLsbD N) (x.toNat % 2 ^ N) = x.toInt := by
  have hsign : x.getLsbD N = x.msb := x.msb_eq_getLsbD_last.symm
  have hmsb : x.msb = decide (2 ^ N ≤ x.toNat) := x.msb_eq_decide
  have hlt : x.toNat < 2 ^ N * 2 := x.isLt
  rw [signedRaw, negN, hsign, BitVec.toInt_eq_msb_cond, hmsb]
  by_cases h : 2 ^ N ≤ x.toNat
  · have hfield : x.toNat % 2 ^ N = x.toNat - 2 ^ N := by
      rw [Nat.mod_eq_sub_mod h, Nat.mod_eq_of_lt (by omega)]
    rw [if_pos (decide_eq_true h), if_pos (decide_eq_true h), hfield]
    push_cast [h, pow_succ]
    ring
  · rw [if_neg (mt of_decide_eq_true h), if_neg (mt of_decide_eq_true h), Nat.mod_eq_of_lt (by omega)]

/-- R109: the two rules differ by the sign bit. -/
theorem signedRaw_formula_eq_add (N v : Nat) (sign : Bool) :
    signedRaw .formula N sign v = signedRaw .twosComplement N sign v + if sign then 1 else 0 := by
  rw [signedRaw_formula, signedRaw, negN]
  split <;> ring

/-- Settles O35, with the field as a number (internalField_eq) and as a bit vector (internalRaw_eq). -/
theorem internalRawCode : Obligations.InternalRawCode := by
  intro w
  simp only [toInt_internalRaw]
  refine ⟨?_, ?_, ?_⟩
  · rw [internalRaw, internalField_eq, signedRaw_formula]; rfl
  · rw [internalRaw, internalField_eq]; rfl
  · rw [internalRaw_eq, signedRaw_twosComplement]; rfl

/-- Settles O36, with the field as a number (thermocoupleField_eq) and as a bit vector (thermocoupleRaw_eq). -/
theorem thermocoupleRawCode : Obligations.ThermocoupleRawCode := by
  intro w
  simp only [toInt_thermocoupleRaw]
  refine ⟨?_, ?_, ?_⟩
  · rw [thermocoupleRaw, thermocoupleField_eq, signedRaw_formula]; rfl
  · rw [thermocoupleRaw, thermocoupleField_eq]; rfl
  · rw [thermocoupleRaw_eq, signedRaw_twosComplement]; rfl

/-- Settles O39: both raw codes follow R104. -/
theorem negRulesDifferByTheSign : Obligations.NegRulesDifferByTheSign :=
  fun _ => ⟨signedRaw_formula_eq_add .., signedRaw_formula_eq_add ..⟩

/-! ## The derived encoders -/

/-- R115's encode_N makes an N-bit field that R104 reads back. -/
theorem signedRaw_encodeN {rule : NegRule} {N : Nat} {x : Int} (h : representable rule N x = true) :
    (encodeN rule N x).2 < 2 ^ N ∧ signedRaw rule N (encodeN rule N x).1 (encodeN rule N x).2 = x := by
  have hpow : ((2 ^ N : Nat) : Int) = 2 ^ N := Nat.cast_pow 2 N
  by_cases hx : 0 ≤ x
  · have henc : encodeN rule N x = (false, x.toNat) := if_pos hx
    have hmax : x ≤ 2 ^ N - 1 := by cases rule <;> exact (of_decide_eq_true h).2
    rw [henc]
    exact ⟨by omega, Int.toNat_of_nonneg hx⟩
  · cases rule with
    | formula =>
      have henc : encodeN .formula N x = (true, (x + (2 ^ N - 1)).toNat) := if_neg hx
      obtain ⟨hmin, -⟩ := of_decide_eq_true h
      rw [henc, signedRaw_formula, if_pos rfl]
      omega
    | twosComplement =>
      have henc : encodeN .twosComplement N x = (true, (x + 2 ^ N).toNat) := if_neg hx
      obtain ⟨hmin, -⟩ := of_decide_eq_true h
      rw [henc, signedRaw, if_pos rfl, negN]
      omega

theorem encodeInternal_eq_frameWordOf (rule : NegRule) (x : Int) (h : (encodeN rule 11 x).2 < 2 ^ 11) :
    encodeInternal rule x =
      frameWordOf false 0 false false (encodeN rule 11 x).1 (BitVec.ofNat 11 (encodeN rule 11 x).2) false 0 := by
  rw [encodeInternal, frameWordOf, fieldTo, fieldTo, fieldTo, BitVec.setWidth_ofNat_of_le_of_lt (by decide) h]
  simp [bitTo_false]

theorem encodeThermocouple_eq_frameWordOf (rule : NegRule) (x : Int) (h : (encodeN rule 13 x).2 < 2 ^ 13) :
    encodeThermocouple rule x =
      frameWordOf (encodeN rule 13 x).1 (BitVec.ofNat 13 (encodeN rule 13 x).2) false false false 0 false 0 := by
  rw [encodeThermocouple, frameWordOf, fieldTo, fieldTo, fieldTo, BitVec.setWidth_ofNat_of_le_of_lt (by decide) h]
  simp [bitTo_false]

/-- The raw codes of a frame word made of fields, as integers (R105, R106). -/
theorem rawCodes_frameWordOf (rule : NegRule) (tSign : Bool) (tMag : BitVec 13) (x f iSign : Bool)
    (iMag : BitVec 11) (y : Bool) (c : BitVec 3) :
    internalRaw rule (frameWordOf tSign tMag x f iSign iMag y c) = signedRaw rule 11 iSign iMag.toNat ∧
      thermocoupleRaw rule (frameWordOf tSign tMag x f iSign iMag y c) = signedRaw rule 13 tSign tMag.toNat := by
  obtain ⟨hi, ht⟩ := frameWordOf_magnitudes tSign tMag x f iSign iMag y c
  constructor
  · rw [internalRaw, hi, getLsbD_frameWordOf]; simp
  · rw [thermocoupleRaw, ht, getLsbD_frameWordOf]; simp

/-- Settles O46: an encoded word is made of the fields of encode_N, which the decoding reads back. -/
theorem decodeInvertsTheEncoders : Obligations.DecodeInvertsTheEncoders := by
  intro rule x
  refine ⟨fun h => ?_, fun h => ?_⟩
  · obtain ⟨hfield, hback⟩ := signedRaw_encodeN h
    rw [encodeInternal_eq_frameWordOf rule x hfield, (rawCodes_frameWordOf ..).1, BitVec.toNat_ofNat,
      Nat.mod_eq_of_lt hfield, hback]
  · obtain ⟨hfield, hback⟩ := signedRaw_encodeN h
    rw [encodeThermocouple_eq_frameWordOf rule x hfield, (rawCodes_frameWordOf ..).2, BitVec.toNat_ofNat,
      Nat.mod_eq_of_lt hfield, hback]

/-! ## The operations of the TFD -/

/-- Settles O40: each of the three means one answer of the TFD. -/
theorem pureOperationsComplete : Obligations.PureOperationsComplete :=
  fun s => ⟨fun _ => tfdAnswer_next s _, fun _ => tfdAnswer_next s _, fun _ => tfdAnswer_next s _⟩

/-- Settles O42: the answers of pureOperationsComplete, with 4 and with 2 fraction bits, as rationals. -/
theorem celsiusIsExact : Obligations.CelsiusIsExact := by
  intro s raw
  obtain ⟨-, hi, ht⟩ := pureOperationsComplete s
  refine ⟨⟨_, hi raw, ?_⟩, _, ht raw, ?_⟩ <;> rw [celsiusValue, div_eq_mul_one_div] <;> norm_num

/-- Settles O43, by the answer to the transfer. -/
theorem readFrameCompletes : Obligations.ReadFrameCompletes :=
  fun s => ⟨tfdTransfer_frame _ _ s, tfdTransfer_error _ _ s⟩

/-- Settles O44, by the answer to the transfer; the result of a frame is R113's test, written the other way round. -/
theorem getTemperatureCompletes : Obligations.GetTemperatureCompletes := by
  intro s
  refine ⟨fun b0 b1 b2 b3 h => ?_, tfdTransfer_error _ _ s⟩
  rw [exec, execGetTemperature, tfdTransfer_frame _ _ s b0 b1 b2 b3 h, temperatureResult, ite_not]
  rfl

end Sys2Proof.Machine
end

section
/-! PROOFS of the family 60_exceptions: refusals before any event (R124), failed writes under both policies (R122),
events that do not complete (R140, R161), requests held and granted (R131, R135), and the result of every operation
(R121). Each operation of the DPE is one accepted dpeOperation (opEvents_exec), each step one of step_cases. -/

namespace Sys2Proof.Machine

/-! ## Operands outside their domain -/

/-- An operation whose operand check fails is refused on a free DPE (R124). -/
theorem dpeOperation_invalid {s : State} (hf : s.free) (i : Instr) {valid : Bool} (hvalid : valid = false)
    (body : List Action) (e : Ending) : dpeOperation i valid body e s = .next (s.answered .invalidOperand) := by
  subst hvalid
  exact dpeOperation_refused i body e s hf

theorem addrOk_eq_false {line : Line} {col : Byte} (h : 0x7F < lineBase line + col.toNat) :
    addrOk line col = false :=
  Bool.eq_false_iff.mpr fun hok => absurd ((addrOk_iff line col).mp hok) (by omega)

theorem textOk_eq_false {cfg : Config} {text : List Byte} {m : Nat} (hmax : cfg.textMax = some m)
    (h : m < text.length) : textOk cfg text = false :=
  Bool.eq_false_iff.mpr fun hok => absurd ((textOk_iff cfg text).mp hok m hmax) (by omega)

theorem glyphsOk_eq_false {glyphs : List (List Byte)} {g : List Byte} (hg : g ∈ glyphs) (h : g.length ≠ 8) :
    glyphsOk glyphs = false :=
  Bool.eq_false_iff.mpr fun hok => h (((glyphsOk_iff glyphs).mp hok).2 g hg)

/-- Settles O22: each operand outside its domain makes the check of its operation false, and too many glyphs are
refused by exec_loadCustomChars_refused. -/
theorem operandsOutsideTheDomainAreRefused : Obligations.OperandsOutsideTheDomainAreRefused := by
  intro s hf
  refine ⟨fun text line col haddr => ?_, fun text line col m hmax hlong => ⟨?_, ?_⟩, fun glyphs hbad => ?_⟩
  · exact dpeOperation_invalid hf _ (by rw [addrOk_eq_false haddr, Bool.false_and]) _ _
  · exact dpeOperation_invalid hf _ (by rw [textOk_eq_false hmax hlong, Bool.and_false]) _ _
  · exact dpeOperation_invalid hf _ (textOk_eq_false hmax hlong) _ _
  · rcases hbad with hcount | ⟨g, hg, hrows⟩
    · exact exec_loadCustomChars_refused glyphs s hf hcount
    · exact dpeOperation_invalid hf _ (glyphsOk_eq_false hg hrows) _ _

/-! ## Failed writes -/

/-- Settles O24: the operation is accepted with those events (opEvents_exec), and dpeOperation_aborted cuts it at the
failed write. -/
theorem failedWriteAbortsTheOperation : Obligations.FailedWriteAbortsTheOperation := by
  intro s i done b rest hevents hf hpol hok herr
  obtain ⟨body, hbody, hx⟩ := opEvents_exec s i _ hevents
  rw [hx]
  exact dpeOperation_aborted i s hf (endingOf_ne_primitive i) hpol done b rest hbody hok herr

/-- No end of an operation writes init_done or backlightOn after a failure (R122). -/
theorem Ending.initDone_failed (e : Ending) (done : Bool) : e.initDone true done = done := by
  cases e with
  | init => exact Bool.or_false done
  | primitive | plain | backlight => rfl

theorem Ending.light_failed (e : Ending) (light : Bool) : e.light true light = light := by
  cases e <;> rfl

/-- Settles O25: dpeOperation_issued issues every event, and with a failure among the answers the end of the operation
writes nothing but the result. -/
theorem failedWriteUnderContinue : Obligations.FailedWriteUnderContinue := by
  intro s i es oks hevents hf hpol hlength hfailed hanswers
  obtain ⟨body, rfl, hx⟩ := opEvents_exec s i es hevents
  rw [hx, dpeOperation_issued i s hf (endingOf_ne_primitive i) oks hlength (.inl hpol) hanswers,
    List.contains_iff_mem.mpr hfailed, Bool.or_true, Ending.initDone_failed, Ending.light_failed]
  rfl

/-! ## Events that do not complete -/

/-- Settles O26: the operation is accepted with those events (opEvents_exec), and dpeOperation_stalled leaves it at the
event that does not complete. -/
theorem unansweredWriteKeepsTheLock : Obligations.UnansweredWriteKeepsTheLock := by
  intro s i done e rest oks hevents hf hlength hgoes hanswers hstall
  obtain ⟨body, hbody, hx⟩ := opEvents_exec s i _ hevents
  obtain ⟨todo, htodo, hstalled⟩ := dpeOperation_stalled (e := endingOf i) i s hf done e rest oks hbody hlength hgoes
    hanswers hstall
  exact ⟨todo, htodo, hx.trans hstalled⟩

/-- Settles O60: the step drives the operation (step_resume), which drive_stalled leaves at the event that does not
complete. -/
theorem resumedOperationWaitsOn : Obligations.ResumedOperationWaitsOn := by
  intro s p done e rest oks hreset hresume hp hsplit hlength hgoes hanswers hstall
  rw [step_resume s p hreset hp hresume]
  obtain ⟨todo, htodo, hdrive⟩ := (s.chosen s.schedule.tail s.freeCount).drive_stalled p hp done e rest oks hsplit
    hlength hgoes hanswers hstall
  exact ⟨todo, htodo, congrArg Host.Outcome.next hdrive⟩

/-- Settles O45: tfdTransfer_notYet, for the two operations with a transfer. -/
theorem unansweredTransferStaysOutstanding : Obligations.UnansweredTransferStaysOutstanding := by
  rintro s i (rfl | rfl) hanswer
  · exact tfdTransfer_notYet _ _ s hanswer
  · exact tfdTransfer_notYet _ _ s hanswer

/-! ## Requests held -/

/-- Settles O23: every host operation of the DPE is a dpeOperation, which holds its request where the DPE is not free. -/
theorem requestToABusyEncoderIsHeld : Obligations.RequestToABusyEncoderIsHeld := by
  intro s i hhost hblock hbusy
  obtain ⟨valid, body, hx, -⟩ := exec_operation i s hblock hhost
  rw [hx]
  exact dpeOperation_held i valid body _ s hbusy

/-- An instruction takes no held request and adds none but its own (R131, R140). -/
theorem exec_requests {i : Instr} {s t : State} (h : exec i s = .next t) :
    t.requests = s.requests ∨ t.requests = s.requests ++ [⟨s.caller, .call i⟩] := by
  rcases exec_shape i s with ⟨valid, body, hx, -⟩ | ⟨actions, hx, -⟩ | ⟨result, hx, -⟩ | ⟨r, hx, -⟩ <;> rw [hx] at h
  · rcases dpeOperation_cases _ _ _ _ _ _ h with ⟨-, rfl⟩ | ⟨-, -, rfl⟩ | ⟨-, -, rfl⟩
    · exact .inr rfl
    · exact .inl rfl
    · exact .inl (by simp)
  · cases h
    exact .inl (by simp)
  · rcases tfdTransfer_cases _ _ _ _ h with ⟨_, _, rfl⟩ | rfl
    · exact .inl rfl
    · exact .inr rfl
  · cases h
    exact .inl rfl

/-- An instruction of the TFD leaves the requests held to the DPE as they are (R3). -/
theorem exec_tfd_requests {i : Instr} {s t : State} (hblock : i.block = .tfd) (h : exec i s = .next t) :
    (t.requests.filter fun r => r.payload.block == .dpe) = s.requests.filter fun r => r.payload.block == .dpe := by
  rcases exec_requests h with ht | ht <;> rw [ht]
  simp [Payload.block, hblock]

theorem State.dpeIdle_eq_false {s : State} (h : ¬ s.free) : s.dpeIdle = false := by
  simpa [← State.dpeIdle_iff] using h

/-- Settles O52: a busy DPE grants only requests to the TFD, in whose grants those to the DPE stay in place
(grants_held), and what runs is the TFD's or the operation in progress. -/
theorem requestsStayHeldWhileBusy : Obligations.RequestsStayHeldWhileBusy := by
  intro s t hbusy hreset h
  have hidle : s.dpeIdle = false := State.dpeIdle_eq_false (by simp [hbusy])
  rcases step_cases s t h with ⟨hr, -⟩ | ⟨-, -, rfl⟩ | ⟨-, -, ks, n, rfl⟩ |
    ⟨-, ks, n, r, rest, i, hg, hfetch, hx⟩
  · simp [hreset] at hr
  · rfl
  · simp
  · rw [hidle] at hg
    obtain ⟨-, -, hno | htfd⟩ := grants_mem _ _ _ _ hg
    · cases hno
    · rw [exec_tfd_requests ((r.payload.fetch_block i hfetch).trans htfd) hx]
      exact grants_held _ _ _ hg

/-! ## Requests granted -/

/-- Where the DPE is not free, the schedule's number of a held request to the TFD is that of the requests to the TFD
before it, behind going on with the operation in progress (R21, R135). -/
theorem State.choose_tfd (s : State) (k : Nat) (ks : List Nat) (hk : k < s.requests.length) (hbusy : ¬ s.free)
    (htfd : s.requests[k].payload.block = .tfd)
    (hs : s.schedule = ((s.requests.take k).countP (fun r => r.payload.block == .tfd)
        + if s.inProgress.isSome then 1 else 0) :: ks) :
    s.choose = some (.grant s.requests[k] (s.requests.eraseIdx k), s.chosen ks s.freeCount) := by
  apply s.choose_number _ ks _ _ hs
  have hgrant := grants_tfd s.requests k hk htfd
  cases hp : s.inProgress <;> simp [State.moves, hp, State.dpeIdle_eq_false hbusy, hgrant]

/-- Settles O51: the named request is the move chosen (choose_free, choose_tfd), and the step runs what it carries. -/
theorem anyHeldRequestMayBeGranted : Obligations.AnyHeldRequestMayBeGranted := by
  intro s k ks i hk hreset hfetch
  have granted : s.choose = some (.grant s.requests[k] (s.requests.eraseIdx k), s.chosen ks s.freeCount) →
      step s = exec i ((s.chosen ks s.freeCount).serve (s.requests.eraseIdx k) s.requests[k].caller) := fun hc => by
    rw [step_grant s _ _ _ _ hreset hc, hfetch]
  exact ⟨fun hf hs => granted (s.choose_free k ks hk hf hs),
    fun hbusy htfd hs => granted (s.choose_tfd k ks hk hbusy htfd hs)⟩

/-- The first of the held requests, whose bytes decode to i, runs on a free DPE where the schedule names it or it is
the only one. -/
theorem step_first {s : State} {r : Request} {rest : List Request} {f : Format} {bytes : List Byte} {i : Instr}
    (hreset : s.resetAsserted = false) (hf : s.free) (hq : s.requests = r :: rest)
    (hs : s.schedule.head? = some 0 ∨ rest = []) (hr : r.payload = .encoded f bytes)
    (hd : decodeRow f bytes = .ok i) :
    step s = exec i { s with requests := rest, caller := r.caller, schedule := s.schedule.tail } := by
  obtain ⟨moves, hmoves, honly⟩ := s.moves_free r rest hf hq
  rw [step_grant s r rest _ _ hreset (s.choose_first _ moves hmoves (hs.imp id honly)), hr,
    Payload.fetch_encoded f bytes i hd]
  rfl

/-- A word that decodes is a row of the table whose bytes decode (R58). -/
theorem tableItem_of_decodeTableWord {nbits w : Nat} {i : Instr} (h : decodeTableWord nbits w = some i) :
    ∃ f bytes, tableItem nbits w = some (f, bytes) ∧ decodeRow f bytes = .ok i := by
  cases hitem : tableItem nbits w with
  | none => simp [decodeTableWord, hitem] at h
  | some row =>
    simp only [decodeTableWord, hitem] at h
    cases hd : decodeRow row.1 row.2 with
    | error why => simp [hd, Except.toOption] at h
    | ok j =>
      obtain rfl : j = i := by simpa [hd, Except.toOption] using h
      exact ⟨row.1, row.2, rfl, hd⟩

/-- In the state withFetchWord makes, the first held request carries the word's bytes. -/
theorem State.withFetchWord_requests (s : State) {nbits w : Nat} {f : Format} {bytes : List Byte}
    (h : tableItem nbits w = some (f, bytes)) :
    (s.withFetchWord nbits w).requests = ⟨s.caller, .encoded f bytes⟩ :: s.requests := by
  simp [State.withFetchWord, h]

/-- Settles O50: step_first, for any state and for the one withFetchWord makes, whose first request holds the word. -/
theorem stepRunsTheDecodedInstruction : Obligations.StepRunsTheDecodedInstruction := by
  refine ⟨fun s r rest f bytes i hreset hf hq hs hr hd => step_first hreset hf hq hs hr hd, fun s nbits w i h => ?_⟩
  obtain ⟨f, bytes, hitem, hd⟩ := tableItem_of_decodeTableWord h
  exact step_first rfl ⟨rfl, rfl⟩ (s.withFetchWord_requests hitem) (.inl rfl) rfl hd

/-! ## Results -/

/-- Whatever move is chosen, a step whose held requests can be read goes on (R140). -/
theorem step_next {s : State} (hread : ∀ r ∈ s.requests, ∃ i, r.payload.fetch = .ok i) : ∃ t, step s = .next t := by
  cases hreset : s.resetAsserted with
  | true => exact ⟨_, step_reset s hreset⟩
  | false =>
    cases hc : s.choose with
    | none => exact ⟨s, step_idle s hreset (s.choose_none.mp hc)⟩
    | some move =>
      obtain ⟨m, s'⟩ := move
      obtain ⟨hm, ks, n, rfl⟩ := s.choose_some s' m hc
      cases m with
      | resume => exact ⟨(s.chosen ks n).drive, by simp [step, hreset, hc]⟩
      | grant r rest =>
        obtain ⟨hr, -, -⟩ := grants_mem _ _ _ _ ((s.moves_grant r rest).mp hm)
        obtain ⟨i, hi⟩ := hread r hr
        rw [step_grant s r rest ks n hreset hc, hi]
        exact exec_next i _

/-- Settles O55: exec_next, and step_next from it. -/
theorem noConditionStopsTheMachine : Obligations.NoConditionStopsTheMachine :=
  ⟨exec_next, fun _ => step_next⟩

/-- Settles O56, by what each shared operation can answer: a dpeOperation is held, refused, or driven to its end or to
a stall (drive_result); a transfer is answered or held again; a pure function is answered. -/
theorem everyOperationEndsWithOneResult : Obligations.EveryOperationEndsWithOneResult := by
  intro i s t hhost h
  rcases exec_shape i s with ⟨valid, body, hx, hdpe, -⟩ | ⟨actions, -, -, hprim⟩ | ⟨result, hx, htfd, -⟩ |
    ⟨r, hx, htfd⟩
  · rcases dpeOperation_cases _ _ _ _ _ _ (hx ▸ h) with ⟨-, rfl⟩ | ⟨hf, -, rfl⟩ | ⟨-, -, rfl⟩
    · exact .inr (.inr (.inl ⟨rfl, rfl, rfl, rfl⟩))
    · exact .inl ⟨_, rfl, rfl, hf.1, hdpe⟩
    · rcases (s.accept body (endingOf i)).drive_result _ rfl (endingOf_ne_primitive i) with
        ⟨r, hr, hbusy, -⟩ | ⟨hr, hbusy, todo, failed, hp⟩
      · exact .inl ⟨r, hr, by simp, hbusy, hdpe⟩
      · exact .inr (.inr (.inr ⟨hbusy, ⟨_, hp, rfl⟩, hr, hdpe⟩))
  · simp [hhost] at hprim
  · rcases tfdTransfer_cases _ _ _ _ (hx ▸ h) with ⟨e, r, rfl⟩ | rfl
    · exact .inr (.inl ⟨r, rfl, rfl, htfd⟩)
    · exact .inr (.inr (.inl ⟨rfl, rfl, rfl, rfl⟩))
  · rw [hx] at h
    cases h
    exact .inr (.inl ⟨r, rfl, rfl, htfd⟩)

/-- Settles O47, by the definition of resultCode and of the code beside it. -/
theorem resultCodes : Obligations.ResultCodes :=
  ⟨rfl, fun _ => rfl, fun _ => rfl, rfl, rfl, fun _ => ⟨rfl, rfl⟩⟩

end Sys2Proof.Machine
end

section
/-! PROOFS of the family 70_reset_and_hazards: a reset of the DPE (R146, R28) and the block that idles until its first
request (R148). The two steps are step_reset and step_idle. -/

namespace Sys2Proof.Machine

/-- Settles O49, by step_reset: the state the statement writes out is resetDpe. -/
theorem resetDiscardsTheOperationInProgress : Obligations.ResetDiscardsTheOperationInProgress :=
  step_reset

/-- A move goes on with an operation in progress or grants a held request; without either none is open (R148). -/
theorem State.moves_eq_nil {s : State} (hidle : s.inProgress = none) (hq : s.requests = []) : s.moves = [] := by
  simp [State.moves, hidle, hq, grants]

/-- Settles O53, by step_idle: no move is open (State.moves_eq_nil). -/
theorem idleWithoutRequests : Obligations.IdleWithoutRequests :=
  fun s hreset hidle hq => step_idle s hreset (State.moves_eq_nil hidle hq)

end Sys2Proof.Machine
end
